-- ==== Sys2Proof/Config.lean ====
section
/-! DEFINITION. What is fixed for the machine: the parameters of 00_scope.md R10, each under its own name (R5), and the
free value RNG. The parameters whose value a test could show wrong (the load and font addresses, the font's bytes, the
quirks) stand in Machine/Params.lean, and HostKey, the other open parameter, in Machine/HostCalls.lean. A size that is
the length of a type is an `abbrev`, so that the type's lemmas apply. -/

namespace Sys2Proof.Config

/-- MEM_SIZE: addresses 0x000 to 0xFFF (20_memory.md R50). -/
def memSize : Nat := 4096

/-- RESERVED_LO, the first address of the region that `load` never writes (20_memory.md R52). -/
def reservedLo : Nat := 0x000

/-- RESERVED_HI, the last address of that region (20_memory.md R52). -/
def reservedHi : Nat := 0x1FF

/-- FONT_GLYPHS, one glyph for each hex digit (20_memory.md R53). -/
def fontGlyphs : Nat := 16

/-- GLYPH_BYTES, one byte for each row of a glyph (20_memory.md R53). -/
def glyphBytes : Nat := 5

/-- NUM_V, how many general registers there are (10_state.md R21). -/
abbrev numV : Nat := 16

/-- STACK_DEPTH (10_state.md R28). -/
abbrev stackDepth : Nat := 16

/-- SCREEN_W, the columns of the screen (10_state.md R33). -/
abbrev screenW : Nat := 64

/-- SCREEN_H, the rows of the screen (10_state.md R33). -/
abbrev screenH : Nat := 32

/-- NUM_KEYS, how many logical keys there are (10_state.md R32). -/
abbrev numKeys : Nat := 16

/-- SPRITE_WIDTH in pixels (44_display.md R203). -/
def spriteWidth : Nat := 8

/-- INSTR_BYTES: every instruction is one word of two bytes (30_encoding.md R71). -/
def instrBytes : Nat := 2

/-- TICK_RATE in ticks a second: host policy, and no rule depends on it (70_reset_and_hazards.md R289; log 28). -/
def tickRate : Nat := 60

/-- RNG, the open parameter (92_eei_decisions.md D20): the byte that the n-th execution of CXNN draws. It has no body,
so no proof can know or relate its values: a claim about a draw holds for every draw. Log 2 (DESIGN CHOICE, safe). -/
opaque randomByte : Nat → BitVec 8

end Sys2Proof.Config
end

