-- ==== Sys2Proof/Word.lean ====
section
/-! DEFINITION. The machine's word types (10_state.md R21, R23, R24; 30_encoding.md R73). -/

namespace Sys2Proof

/-- One byte: a memory cell, a V register, a timer, the literal NN. -/
abbrev Byte := BitVec 8

/-- A 16-bit word: I, pc, a stack entry, an instruction word. -/
abbrev Word := BitVec 16

/-- The 12-bit address literal NNN (30_encoding.md R73). -/
abbrev Addr12 := BitVec 12

/-- A general register's index, V0 to VF (10_state.md R21). -/
abbrev Reg := Fin Config.numV

/-- A logical key, 0x0 to 0xF (10_state.md R32). -/
abbrev Key := Fin Config.numKeys

end Sys2Proof
end

