-- ==== Sys2Proof/Machine/Flags.lean ====
section
/-! DEFINITION. Every value that VF takes as a flag (10_state.md R36). -/

namespace Sys2Proof.Machine

/-- A condition as the byte VF holds. -/
def flag (b : Bool) : Byte := if b then 1 else 0

/-- 8XY4: 1 if the sum passes 255 (42_alu.md R147). -/
def carryFlag (a b : Byte) : Byte := flag (decide (255 < a.toNat + b.toNat))

/-- 8XY5 and 8XY7: 1 if `a - b` needs no borrow, that is a ≥ b, equality included (42_alu.md R148, R150; decision D13;
log 12). -/
def noBorrowFlag (a b : Byte) : Byte := flag (decide (b.toNat ≤ a.toNat))

/-- 8XY6: the bit shifted out on the right (42_alu.md R149). -/
def shrFlag (src : Byte) : Byte := src &&& 1

/-- 8XYE: the bit shifted out on the left (42_alu.md R151). -/
def shlFlag (src : Byte) : Byte := (src >>> 7) &&& 1

end Sys2Proof.Machine
end

