-- ==== Sys2Proof/Syntax.lean ====
section
/-! DEFINITION. The 35 instructions, one constructor for each row of spec/opcode_table.json, in the table's order
(30_encoding.md R77). -/

namespace Sys2Proof

/-- An instruction with its operands already taken out of the word (30_encoding.md R73): register indices X and Y, the
literal NN, the address NNN, the row count N. -/
inductive Instr where
  /-- 0NNN SYS NNN (40_control_flow.md R100) -/
  | sys (nnn : Addr12)
  /-- 00E0 CLS (44_display.md R200) -/
  | cls
  /-- 00EE RET (40_control_flow.md R101) -/
  | ret
  /-- 1NNN JP NNN (40_control_flow.md R102) -/
  | jp (nnn : Addr12)
  /-- 2NNN CALL NNN (40_control_flow.md R103) -/
  | call (nnn : Addr12)
  /-- 3XNN SE VX, NN (41_skips.md R121) -/
  | seImm (x : Reg) (nn : Byte)
  /-- 4XNN SNE VX, NN (41_skips.md R122) -/
  | sneImm (x : Reg) (nn : Byte)
  /-- 5XY0 SE VX, VY (41_skips.md R123) -/
  | seReg (x y : Reg)
  /-- 6XNN LD VX, NN (42_alu.md R141) -/
  | ldImm (x : Reg) (nn : Byte)
  /-- 7XNN ADD VX, NN (42_alu.md R142) -/
  | addImm (x : Reg) (nn : Byte)
  /-- 8XY0 LD VX, VY (42_alu.md R143) -/
  | ldReg (x y : Reg)
  /-- 8XY1 OR VX, VY (42_alu.md R144) -/
  | orReg (x y : Reg)
  /-- 8XY2 AND VX, VY (42_alu.md R145) -/
  | andReg (x y : Reg)
  /-- 8XY3 XOR VX, VY (42_alu.md R146) -/
  | xorReg (x y : Reg)
  /-- 8XY4 ADD VX, VY (42_alu.md R147) -/
  | addReg (x y : Reg)
  /-- 8XY5 SUB VX, VY (42_alu.md R148) -/
  | subReg (x y : Reg)
  /-- 8XY6 SHR VX, VY (42_alu.md R149) -/
  | shr (x y : Reg)
  /-- 8XY7 SUBN VX, VY (42_alu.md R150) -/
  | subnReg (x y : Reg)
  /-- 8XYE SHL VX, VY (42_alu.md R151) -/
  | shl (x y : Reg)
  /-- 9XY0 SNE VX, VY (41_skips.md R124) -/
  | sneReg (x y : Reg)
  /-- ANNN LD I, NNN (43_index_memory.md R180) -/
  | ldI (nnn : Addr12)
  /-- BNNN JP V0, NNN (40_control_flow.md R104) -/
  | jpV0 (nnn : Addr12)
  /-- CXNN RND VX, NN (42_alu.md R152) -/
  | rnd (x : Reg) (nn : Byte)
  /-- DXYN DRW VX, VY, N (44_display.md R201) -/
  | drw (x y : Reg) (n : Fin 16)
  /-- EX9E SKP VX (45_keyboard_timers.md R221) -/
  | skp (x : Reg)
  /-- EXA1 SKNP VX (45_keyboard_timers.md R222) -/
  | sknp (x : Reg)
  /-- FX07 LD VX, DT (45_keyboard_timers.md R225) -/
  | ldVxDt (x : Reg)
  /-- FX0A LD VX, K (45_keyboard_timers.md R226) -/
  | ldVxK (x : Reg)
  /-- FX15 LD DT, VX (45_keyboard_timers.md R228) -/
  | ldDtVx (x : Reg)
  /-- FX18 LD ST, VX (45_keyboard_timers.md R229) -/
  | ldStVx (x : Reg)
  /-- FX1E ADD I, VX (43_index_memory.md R181) -/
  | addIVx (x : Reg)
  /-- FX29 LD F, VX (43_index_memory.md R182) -/
  | ldFVx (x : Reg)
  /-- FX33 LD B, VX (43_index_memory.md R183) -/
  | ldBVx (x : Reg)
  /-- FX55 LD [I], VX (43_index_memory.md R184) -/
  | ldMemVx (x : Reg)
  /-- FX65 LD VX, [I] (43_index_memory.md R185) -/
  | ldVxMem (x : Reg)
deriving DecidableEq, Repr

end Sys2Proof
end

