-- ==== Sys2Proof/Decode.lean ====
section
/-! DEFINITION. Decoding (30_encoding.md R71 to R76, R83), total on any bytes and rejecting by name, and the encoder
written from the same formats (R72). Bit patterns other than 00E0, 1NNN, 6XNN and 7XNN, and the places of Y and N, are
general knowledge in the spec itself (93_implementation_defined.md G1, G2). Log 10 (PRESUMED, unsafe). -/

namespace Sys2Proof

/-- Why bytes are no instruction: one name for each row of 30_encoding.md R83 that decodes to `Illegal`, and one for
an input too short to hold a word. -/
inductive DecodeReject where
  /-- fewer than two bytes -/
  | shortInput
  /-- 5XYN with N ≠ 0 -/
  | undefinedCode5
  /-- 8XYN with N one of 8, 9, A, B, C, D, F -/
  | undefinedCode8
  /-- 9XYN with N ≠ 0 -/
  | undefinedCode9
  /-- EXNN with NN neither 9E nor A1 -/
  | undefinedCodeE
  /-- FXNN with NN not one of the nine function bytes -/
  | undefinedCodeF
deriving DecidableEq, Repr

/-! ### Fields (R73) -/

/-- op = w[15:12]. -/
def fieldOp (w : Word) : Nat := (w.extractLsb' 12 4).toNat

/-- X = w[11:8]. -/
def fieldX (w : Word) : Reg := (w.extractLsb' 8 4).toFin

/-- Y = w[7:4]. -/
def fieldY (w : Word) : Reg := (w.extractLsb' 4 4).toFin

/-- N = w[3:0]. -/
def fieldN (w : Word) : Fin 16 := (w.extractLsb' 0 4).toFin

/-- NN = w[7:0]. -/
def fieldNN (w : Word) : Byte := w.extractLsb' 0 8

/-- NNN = w[11:0]. -/
def fieldNNN (w : Word) : Addr12 := w.extractLsb' 0 12

/-! ### Decoding a word (R76) -/

/-- The 8 family by its function code N. -/
def decode8 (x y : Reg) (n : Nat) : Except DecodeReject Instr :=
  match n with
  | 0x0 => .ok (.ldReg x y)
  | 0x1 => .ok (.orReg x y)
  | 0x2 => .ok (.andReg x y)
  | 0x3 => .ok (.xorReg x y)
  | 0x4 => .ok (.addReg x y)
  | 0x5 => .ok (.subReg x y)
  | 0x6 => .ok (.shr x y)
  | 0x7 => .ok (.subnReg x y)
  | 0xE => .ok (.shl x y)
  | _ => .error .undefinedCode8

/-- The E family by its function byte NN. -/
def decodeE (x : Reg) (nn : Nat) : Except DecodeReject Instr :=
  match nn with
  | 0x9E => .ok (.skp x)
  | 0xA1 => .ok (.sknp x)
  | _ => .error .undefinedCodeE

/-- The F family by its function byte NN. -/
def decodeF (x : Reg) (nn : Nat) : Except DecodeReject Instr :=
  match nn with
  | 0x07 => .ok (.ldVxDt x)
  | 0x0A => .ok (.ldVxK x)
  | 0x15 => .ok (.ldDtVx x)
  | 0x18 => .ok (.ldStVx x)
  | 0x1E => .ok (.addIVx x)
  | 0x29 => .ok (.ldFVx x)
  | 0x33 => .ok (.ldBVx x)
  | 0x55 => .ok (.ldMemVx x)
  | 0x65 => .ok (.ldVxMem x)
  | _ => .error .undefinedCodeF

/-- decode(w) of R76. The last arm is op = 0xF, the only value left below 16. -/
def decodeWord (w : Word) : Except DecodeReject Instr :=
  match fieldOp w with
  | 0x0 => if w = 0x00E0 then .ok .cls else if w = 0x00EE then .ok .ret else .ok (.sys (fieldNNN w))
  | 0x1 => .ok (.jp (fieldNNN w))
  | 0x2 => .ok (.call (fieldNNN w))
  | 0x3 => .ok (.seImm (fieldX w) (fieldNN w))
  | 0x4 => .ok (.sneImm (fieldX w) (fieldNN w))
  | 0x5 => if fieldN w = 0 then .ok (.seReg (fieldX w) (fieldY w)) else .error .undefinedCode5
  | 0x6 => .ok (.ldImm (fieldX w) (fieldNN w))
  | 0x7 => .ok (.addImm (fieldX w) (fieldNN w))
  | 0x8 => decode8 (fieldX w) (fieldY w) (fieldN w).val
  | 0x9 => if fieldN w = 0 then .ok (.sneReg (fieldX w) (fieldY w)) else .error .undefinedCode9
  | 0xA => .ok (.ldI (fieldNNN w))
  | 0xB => .ok (.jpV0 (fieldNNN w))
  | 0xC => .ok (.rnd (fieldX w) (fieldNN w))
  | 0xD => .ok (.drw (fieldX w) (fieldY w) (fieldN w))
  | 0xE => decodeE (fieldX w) (fieldNN w).toNat
  | _ => decodeF (fieldX w) (fieldNN w).toNat

/-! ### Bytes (R57, R71) -/

/-- The word whose byte at the lower address is `hi` (20_memory.md R57, R60). -/
def wordOf (hi lo : Byte) : Word := hi ++ lo

/-- A word's byte at the lower address. -/
def highByte (w : Word) : Byte := w.extractLsb' 8 8

/-- A word's byte at the higher address. -/
def lowByte (w : Word) : Byte := w.extractLsb' 0 8

/-- The two bytes of a word in the order memory holds them. -/
def wordBytes (w : Word) : List Byte := [highByte w, lowByte w]

/-- Decode the first instruction of a byte sequence and give back the rest: a decoder always consumes two bytes
(R71). -/
def decode (bytes : List Byte) : Except DecodeReject (Instr × List Byte) :=
  match bytes with
  | hi :: lo :: rest =>
    match decodeWord (wordOf hi lo) with
    | .ok i => .ok (i, rest)
    | .error e => .error e
  | [_] => .error .shortInput
  | [] => .error .shortInput

/-! ### Encoding (R72) -/

/-- A register index or row count as four bits. -/
def nibble (x : Fin 16) : BitVec 4 := .ofFin x

/-- Format NNN. -/
def formatNNN (op : BitVec 4) (nnn : Addr12) : Word := op ++ nnn

/-- Formats XNN and XFN: the low byte is the literal or the function byte. -/
def formatXNN (op : BitVec 4) (x : Reg) (nn : Byte) : Word := op ++ nibble x ++ nn

/-- Format XYN: N is the row count or the function code. -/
def formatXYN (op : BitVec 4) (x y : Reg) (n : Fin 16) : Word := op ++ nibble x ++ nibble y ++ nibble n

/-- The word of an instruction. -/
def encode (i : Instr) : Word :=
  match i with
  | .sys nnn => formatNNN 0x0 nnn
  | .cls => 0x00E0
  | .ret => 0x00EE
  | .jp nnn => formatNNN 0x1 nnn
  | .call nnn => formatNNN 0x2 nnn
  | .seImm x nn => formatXNN 0x3 x nn
  | .sneImm x nn => formatXNN 0x4 x nn
  | .seReg x y => formatXYN 0x5 x y 0x0
  | .ldImm x nn => formatXNN 0x6 x nn
  | .addImm x nn => formatXNN 0x7 x nn
  | .ldReg x y => formatXYN 0x8 x y 0x0
  | .orReg x y => formatXYN 0x8 x y 0x1
  | .andReg x y => formatXYN 0x8 x y 0x2
  | .xorReg x y => formatXYN 0x8 x y 0x3
  | .addReg x y => formatXYN 0x8 x y 0x4
  | .subReg x y => formatXYN 0x8 x y 0x5
  | .shr x y => formatXYN 0x8 x y 0x6
  | .subnReg x y => formatXYN 0x8 x y 0x7
  | .shl x y => formatXYN 0x8 x y 0xE
  | .sneReg x y => formatXYN 0x9 x y 0x0
  | .ldI nnn => formatNNN 0xA nnn
  | .jpV0 nnn => formatNNN 0xB nnn
  | .rnd x nn => formatXNN 0xC x nn
  | .drw x y n => formatXYN 0xD x y n
  | .skp x => formatXNN 0xE x 0x9E
  | .sknp x => formatXNN 0xE x 0xA1
  | .ldVxDt x => formatXNN 0xF x 0x07
  | .ldVxK x => formatXNN 0xF x 0x0A
  | .ldDtVx x => formatXNN 0xF x 0x15
  | .ldStVx x => formatXNN 0xF x 0x18
  | .addIVx x => formatXNN 0xF x 0x1E
  | .ldFVx x => formatXNN 0xF x 0x29
  | .ldBVx x => formatXNN 0xF x 0x33
  | .ldMemVx x => formatXNN 0xF x 0x55
  | .ldVxMem x => formatXNN 0xF x 0x65

/-! ### The opcode table (opcode_table.json) -/

/-- An instruction's row: its match and its mask, as the table's "match" and "mask" have them. -/
def opcodeRow (i : Instr) : Word × Word :=
  match i with
  | .sys _ => (0x0000, 0xF000)
  | .cls => (0x00E0, 0xFFFF)
  | .ret => (0x00EE, 0xFFFF)
  | .jp _ => (0x1000, 0xF000)
  | .call _ => (0x2000, 0xF000)
  | .seImm _ _ => (0x3000, 0xF000)
  | .sneImm _ _ => (0x4000, 0xF000)
  | .seReg _ _ => (0x5000, 0xF00F)
  | .ldImm _ _ => (0x6000, 0xF000)
  | .addImm _ _ => (0x7000, 0xF000)
  | .ldReg _ _ => (0x8000, 0xF00F)
  | .orReg _ _ => (0x8001, 0xF00F)
  | .andReg _ _ => (0x8002, 0xF00F)
  | .xorReg _ _ => (0x8003, 0xF00F)
  | .addReg _ _ => (0x8004, 0xF00F)
  | .subReg _ _ => (0x8005, 0xF00F)
  | .shr _ _ => (0x8006, 0xF00F)
  | .subnReg _ _ => (0x8007, 0xF00F)
  | .shl _ _ => (0x800E, 0xF00F)
  | .sneReg _ _ => (0x9000, 0xF00F)
  | .ldI _ => (0xA000, 0xF000)
  | .jpV0 _ => (0xB000, 0xF000)
  | .rnd _ _ => (0xC000, 0xF000)
  | .drw _ _ _ => (0xD000, 0xF000)
  | .skp _ => (0xE09E, 0xF0FF)
  | .sknp _ => (0xE0A1, 0xF0FF)
  | .ldVxDt _ => (0xF007, 0xF0FF)
  | .ldVxK _ => (0xF00A, 0xF0FF)
  | .ldDtVx _ => (0xF015, 0xF0FF)
  | .ldStVx _ => (0xF018, 0xF0FF)
  | .addIVx _ => (0xF01E, 0xF0FF)
  | .ldFVx _ => (0xF029, 0xF0FF)
  | .ldBVx _ => (0xF033, 0xF0FF)
  | .ldMemVx _ => (0xF055, 0xF0FF)
  | .ldVxMem _ => (0xF065, 0xF0FF)

/-! ### The host's reading of a table row -/

/-- The instruction word of a table row: the low `nbits` bits of `w`, the rest zero. -/
def tableWord (nbits w : Nat) : Word := .ofNat 16 (w % 2 ^ nbits)

/-- The instruction the decoder reads from an instruction whose bits are `w` (the first word's bits 15..0), laid out
as memory holds it. -/
def decodeTableWord (nbits w : Nat) : Option Instr :=
  match decode (wordBytes (tableWord nbits w)) with
  | .ok (i, _) => some i
  | .error _ => none

end Sys2Proof
end

