-- ==== Sys2Proof/Machine/Params.lean ====
section
/-! DEFINITION. The parameters of 00_scope.md R10 whose value a test of the hardware could show wrong: where programs
and the font lie, the font's bytes, and the three quirks. -/

namespace Sys2Proof.Machine

/-- LOAD_ADDR (20_memory.md R51; decision D5; log 8). -/
def loadAddr : Nat := 0x200

/-- FONT_BASE (20_memory.md R51; decision D5; log 8). -/
def fontBase : Nat := 0x000

/-- SHIFT_SOURCE_VY: 8XY6 and 8XYE shift V[Y] (42_alu.md R149, R151; decision D14; log 9). -/
def shiftSourceVY : Bool := false

/-- LOADSTORE_INCREMENTS_I: FX55 and FX65 move I past the transfer (43_index_memory.md R184, R185; decision D16;
log 9). -/
def loadStoreIncrementsI : Bool := false

/-- JUMP_OFFSET_USES_VX: BNNN adds V[X] (40_control_flow.md R104; decision D17; log 9). -/
def jumpOffsetUsesVX : Bool := false

/-- FONT for the digits 0 to 7 (20_memory.md R53). PRESUMED: the document gives no glyph bytes (log 7). -/
def fontLow : List Byte :=
  [0xF0, 0x90, 0x90, 0x90, 0xF0] ++ [0x20, 0x60, 0x20, 0x20, 0x70] ++
  [0xF0, 0x10, 0xF0, 0x80, 0xF0] ++ [0xF0, 0x10, 0xF0, 0x10, 0xF0] ++
  [0x90, 0x90, 0xF0, 0x10, 0x10] ++ [0xF0, 0x80, 0xF0, 0x10, 0xF0] ++
  [0xF0, 0x80, 0xF0, 0x90, 0xF0] ++ [0xF0, 0x10, 0x20, 0x40, 0x40]

/-- FONT for the digits 8 to F (20_memory.md R53). PRESUMED (log 7). -/
def fontHigh : List Byte :=
  [0xF0, 0x90, 0xF0, 0x90, 0xF0] ++ [0xF0, 0x90, 0xF0, 0x10, 0xF0] ++
  [0xF0, 0x90, 0xF0, 0x90, 0x90] ++ [0xE0, 0x90, 0xE0, 0x90, 0xE0] ++
  [0xF0, 0x80, 0x80, 0x80, 0xF0] ++ [0xE0, 0x90, 0x90, 0x90, 0xE0] ++
  [0xF0, 0x80, 0xF0, 0x80, 0xF0] ++ [0xF0, 0x80, 0xF0, 0x80, 0x80]

/-- FONT: the 80 bytes that `initialize()` installs at FONT_BASE (20_memory.md R53). -/
def font : List Byte := fontLow ++ fontHigh

end Sys2Proof.Machine
end

