-- ==== Sys2Proof/Machine/State.lean ====
section
/-! DEFINITION. The machine's state (10_state.md R20), the ways a step can stop, and the state after reset (R40). -/

namespace Sys2Proof.Machine

/-- The four error kinds (60_exceptions.md R250). -/
inductive ErrorKind where
  /-- a memory access at an address of MEM_SIZE or more -/
  | outOfBounds
  /-- a program too large to load, or stack overflow or underflow -/
  | capacityExceeded
  /-- an opcode bit pattern not in the supported set -/
  | illegalInstruction
  /-- a logical key index of 16 or more -/
  | invalidKey
deriving DecidableEq, Repr

/-- The execution mode (10_state.md R34). -/
inductive Mode where
  /-- the next step runs an instruction -/
  | ready
  /-- an FX0A with register index `x` waits for a key press -/
  | waitingForKey (x : Reg)
  /-- a fatal error of this kind ended execution -/
  | halted (kind : ErrorKind)
deriving DecidableEq, Repr

/-- Memory as written since reset: the cells that differ from the reset contents, addresses rising (log 27). What an
unlisted address reads as is `Memory.background` of Machine/Memory.lean. -/
abbrev Memory := List Host.Cell

/-- The framebuffer `pix[x][y]`: SCREEN_W columns of SCREEN_H pixels (10_state.md R33). -/
abbrev Screen := Vector (Vector Bool Config.screenH) Config.screenW

/-- The name under which a state holds a host key. What the host itself calls its keys is the open parameter HostKey
(00_scope.md R10), the argument of `HostKeys` in Machine/HostCalls.lean; a state, being closed data, holds names
(log 3). -/
structure HostKey where
  /-- the number that is the name -/
  id : Nat
deriving DecidableEq, Repr

/-- A key binding table: host keys and the logical keys they stand for (10_state.md R35; log 4). -/
abbrev Binding := List (HostKey × Key)

/-- The calls of the host interface (00_scope.md R9). -/
inductive HostCall where
  /-- `initialize()` (70_reset_and_hazards.md R280) -/
  | reinit
  /-- `load(bytes, length)` (20_memory.md R58) -/
  | load (bytes : List Byte) (length : Nat)
  /-- `bind(map)`, the map listed in any order (45_keyboard_timers.md R236) -/
  | bind (table : Binding)
  /-- `map(host_key)` (45_keyboard_timers.md R237) -/
  | map (hostKey : HostKey)
  /-- `press(k)` (45_keyboard_timers.md R238) -/
  | press (k : Nat)
  /-- `release(k)` (45_keyboard_timers.md R239) -/
  | release (k : Nat)
  /-- `is_down(k)` (45_keyboard_timers.md R240) -/
  | isDown (k : Nat)
  /-- `execute_next()` (30_encoding.md R70) -/
  | executeNext
  /-- `tick_timers()` (45_keyboard_timers.md R241) -/
  | tickTimers
  /-- `is_set(x, y)` (44_display.md R202) -/
  | isSet (x y : Nat)
  /-- the host's read of ST (45_keyboard_timers.md R242) -/
  | readST
deriving DecidableEq, Repr

/-- The machine's state: the record of 10_state.md R20, the binding table of R35, and two fields of the model's own,
`draws` and `hostCalls`. -/
structure State where
  /-- memory (20_memory.md R50) -/
  mem : Memory
  /-- V0 to VF (10_state.md R21) -/
  v : Vector Byte Config.numV
  /-- the index register I (10_state.md R23) -/
  i : Word
  /-- the program counter (10_state.md R24) -/
  pc : Word
  /-- SP, how many entries the stack holds (10_state.md R29) -/
  sp : Fin (Config.stackDepth + 1)
  /-- the stack's entries (10_state.md R28) -/
  stack : Vector Word Config.stackDepth
  /-- the delay timer (10_state.md R26) -/
  dt : Byte
  /-- the sound timer (10_state.md R27) -/
  st : Byte
  /-- which logical keys are down (10_state.md R32) -/
  key : Vector Bool Config.numKeys
  /-- the framebuffer (10_state.md R33) -/
  pix : Screen
  /-- the execution mode (10_state.md R34) -/
  mode : Mode
  /-- the key binding table (10_state.md R35) -/
  binding : Binding
  /-- the model's own: how many random bytes have been drawn (log 2) -/
  draws : Nat
  /-- the model's own: the calls the host makes next, oldest first; a host with none left calls `execute_next()`
  (log 1) -/
  hostCalls : List HostCall
deriving DecidableEq, Repr

/-- Why the machine stops with a fault: never. Every error of this machine is described by the spec as a state, mode
Halted(kind) (60_exceptions.md R251), so it is a next state (log 15). Nobody raises a fault; safe. -/
inductive Fault
deriving DecidableEq, Repr

/-- Why a step has no meaning. -/
inductive Refusal where
  /-- raised by an arm of `exec` for an instruction without a meaning; no arm of this model does; safe -/
  | notModelled (mnemonic : String)
  /-- raised by the host call `load` when the host hands over fewer bytes than the length it states; the spec gives
  no byte to copy there; safe (log 4) -/
  | loadBufferTooShort
  /-- raised by the host call `bind` when the table is not a map, or not injective; the spec's table is always an
  injective map; safe (log 4) -/
  | bindingNotInjective
deriving DecidableEq, Repr

/-- The machine right after reset, as a new machine (10_state.md R40): memory at its reset contents, pc at LOAD_ADDR.
The values of V, I, SP, the stack and the timers are decision D2, those of the keys, the screen and the mode decision
D3 (logs 5 and 6). -/
def State.reset : State where
  mem := []
  v := .replicate Config.numV 0
  i := 0
  pc := .ofNat 16 loadAddr
  sp := 0
  stack := .replicate Config.stackDepth 0
  dt := 0
  st := 0
  key := .replicate Config.numKeys false
  pix := .replicate Config.screenW (.replicate Config.screenH false)
  mode := .ready
  binding := []
  draws := 0
  hostCalls := []

end Sys2Proof.Machine
end

