-- ==== Sys2Proof/Machine/Memory.lean ====
section
/-! DEFINITION. Memory as a list of cells in one canonical form, over the reset contents (20_memory.md R50, R51;
log 27). -/

namespace Sys2Proof.Machine

open Sys2Proof.Config

/-- What an address that nothing has written holds: the font at FONT_BASE, zero elsewhere (10_state.md R40;
20_memory.md R51, R53; 70_reset_and_hazards.md R280). -/
def Memory.background (a : Nat) : Byte :=
  if fontBase ≤ a then font.getD (a - fontBase) 0 else 0

/-- The byte at an address. -/
def Memory.read (m : Memory) (a : Nat) : Byte :=
  match m with
  | [] => Memory.background a
  | c :: rest => if c.1 = a then c.2 else Memory.read rest a

/-- The cells without those at address `a`. -/
def Memory.erase (m : Memory) (a : Nat) : Memory :=
  match m with
  | [] => []
  | c :: rest => if c.1 = a then Memory.erase rest a else c :: Memory.erase rest a

/-- Put a cell before the first one with a higher address. -/
def Memory.insert (m : Memory) (a : Nat) (b : Byte) : Memory :=
  match m with
  | [] => [(a, b)]
  | c :: rest => if a < c.1 then (a, b) :: c :: rest else c :: Memory.insert rest a b

/-- Store a byte at an address. Storing what an unlisted address holds leaves the address unlisted. -/
def Memory.write (m : Memory) (a : Nat) (b : Byte) : Memory :=
  if b = Memory.background a then Memory.erase m a else Memory.insert (Memory.erase m a) a b

/-- Store bytes at rising addresses from `a`. -/
def Memory.writeList (m : Memory) (a : Nat) (bytes : List Byte) : Memory :=
  match bytes with
  | [] => m
  | b :: rest => Memory.writeList (Memory.write m a b) (a + 1) rest

/-- The canonical form: addresses strictly rising, all below MEM_SIZE, and no cell equal to what its address holds
when unlisted. -/
abbrev Memory.wf (m : Memory) : Prop :=
  m.Pairwise (fun c d => c.1 < d.1) ∧ ∀ c ∈ m, c.1 < memSize ∧ c.2 ≠ Memory.background c.1

end Sys2Proof.Machine
end

