-- ==== Sys2Proof/Machine/Ops.lean ====
section
/-! DEFINITION. The named operations over registers, memory and the stack, the halt (60_exceptions.md R251) and the
way out of it (R257). Every instruction's meaning is written over these. -/

namespace Sys2Proof.Machine

open Sys2Proof.Config

/-- INSTR_BYTES as pc counts it. -/
def instrLength : Word := .ofNat 16 instrBytes

/-! ### Registers (10_state.md R21 to R27) -/

/-- VF, the register that is also the flag (10_state.md R36). -/
def vf : Reg := 15

/-- V[x]. -/
def State.reg (s : State) (x : Reg) : Byte := s.v[x]

/-- V[x] <- b. -/
def State.setReg (s : State) (x : Reg) (b : Byte) : State := { s with v := s.v.set x b }

/-- I <- w. -/
def State.setI (s : State) (w : Word) : State := { s with i := w }

/-- pc <- w. -/
def State.setPc (s : State) (w : Word) : State := { s with pc := w }

/-- DT <- b. -/
def State.setDt (s : State) (b : Byte) : State := { s with dt := b }

/-- ST <- b. -/
def State.setSt (s : State) (b : Byte) : State := { s with st := b }

/-- The screen becomes `p`. -/
def State.setPix (s : State) (p : Screen) : State := { s with pix := p }

/-- key[k] <- b. -/
def State.setKey (s : State) (k : Key) (b : Bool) : State := { s with key := s.key.set k b }

/-- mode <- m. -/
def State.setMode (s : State) (m : Mode) : State := { s with mode := m }

/-- Memory becomes `m`. -/
def State.setMem (s : State) (m : Memory) : State := { s with mem := m }

/-- V[x] <- result, then VF <- flag: the flag is written last (42_alu.md R140; decision D12; log 11). -/
def State.setRegFlag (s : State) (x : Reg) (result flag : Byte) : State := (s.setReg x result).setReg vf flag

/-- The byte at an address, as a statement about memory reads it. -/
def State.byte (s : State) (a : Nat) : Byte := Memory.read s.mem a

/-! ### The halt: taking an error, and the only way out (60_exceptions.md R251, R257) -/

/-- `raise Halt(kind)`: mode becomes Halted(kind) unless it is Halted already, whose first kind is kept. Nothing else is
saved or changed (60_exceptions.md R250, R256). -/
def State.halt (s : State) (kind : ErrorKind) : State :=
  match s.mode with
  | .halted _ => s
  | .ready => s.setMode (.halted kind)
  | .waitingForKey _ => s.setMode (.halted kind)

/-- `initialize()`, the only way out of Halted: every piece of the core's state takes its reset value; the binding table
is kept (70_reset_and_hazards.md R280; decision D29). The model's own fields are kept too: a reset gives the random
source no known next value, and it does not call off the host's later calls (log 21). -/
def reinit (s : State) : State :=
  { State.reset with binding := s.binding, draws := s.draws, hostCalls := s.hostCalls }

/-- How an instruction that can raise ends: `.ok` with the state after it, or `.error` with the state at the raise,
where the step ends at once (60_exceptions.md R251). Either is a next state. -/
def endStep (r : Except State State) : Host.Outcome State Fault Refusal :=
  match r with
  | .ok s => .next s
  | .error h => .next h

/-! ### Memory access (20_memory.md R55 to R57) -/

/-- MemRead(addr, 1). The address is not masked (decision D9; log 13). -/
def State.memRead (s : State) (a : Nat) : Except State Byte :=
  if memSize ≤ a then .error (s.halt .outOfBounds) else .ok (s.byte a)

/-- MemWrite(addr, 1, b). -/
def State.memWrite (s : State) (a : Nat) (b : Byte) : Except State State :=
  if memSize ≤ a then .error (s.halt .outOfBounds) else .ok (s.setMem (Memory.write s.mem a b))

/-- FetchWord(addr): big-endian, any alignment (20_memory.md R57, R60, R61). -/
def State.fetchWord (s : State) (a : Nat) : Except State Word :=
  if memSize ≤ a + 1 then .error (s.halt .outOfBounds) else .ok (wordOf (s.byte a) (s.byte (a + 1)))

/-- Read `n` bytes at rising addresses from `a`, each with its own bound check. -/
def State.readBytes (s : State) (a n : Nat) : Except State (List Byte) :=
  match n with
  | 0 => .ok []
  | n + 1 =>
    match s.memRead a with
    | .error h => .error h
    | .ok b =>
      match s.readBytes (a + 1) n with
      | .error h => .error h
      | .ok bs => .ok (b :: bs)

/-- Write bytes at rising addresses from `a`, each with its own bound check; those before a failing one stay written
(43_index_memory.md R186; decision D10; log 14). -/
def State.writeBytes (s : State) (a : Nat) (bytes : List Byte) : Except State State :=
  match bytes with
  | [] => .ok s
  | b :: rest =>
    match s.memWrite a b with
    | .error h => .error h
    | .ok s' => s'.writeBytes (a + 1) rest

/-- Load the registers `xs` from rising addresses from `a`, each with its own bound check; those before a failing one
stay loaded (43_index_memory.md R186; decision D10; log 14). -/
def State.loadRegs (s : State) (a : Nat) (xs : List Reg) : Except State State :=
  match xs with
  | [] => .ok s
  | x :: rest =>
    match s.memRead a with
    | .error h => .error h
    | .ok b => (s.setReg x b).loadRegs (a + 1) rest

/-! ### The stack (10_state.md R28 to R31) -/

/-- Push(w). -/
def State.push (s : State) (w : Word) : Except State State :=
  if h : s.sp.val < stackDepth then
    .ok { s with stack := s.stack.set s.sp.val w h, sp := ⟨s.sp.val + 1, Nat.succ_lt_succ h⟩ }
  else .error (s.halt .capacityExceeded)

/-- Pop(): the entry popped and the state after. The entry's stale value stays in the array (10_state.md R29). -/
def State.pop (s : State) : Except State (Word × State) :=
  match s.sp with
  | ⟨0, _⟩ => .error (s.halt .capacityExceeded)
  | ⟨n + 1, h⟩ => .ok (s.stack[n]'(Nat.lt_of_succ_lt_succ h), { s with sp := ⟨n, Nat.lt_of_succ_lt h⟩ })

/-! ### Skips and keys -/

/-- Skip(cond): pc is past the skip's own word on entry (41_skips.md R120). -/
def State.skip (s : State) (cond : Bool) : State := if cond then s.setPc (s.pc + instrLength) else s

/-- key[k]. -/
def State.keyDown (s : State) (k : Key) : Bool := s.key[k]

/-- KeyIndex(v): a logical key taken from a register or from the host, without masking (45_keyboard_timers.md R220,
R238; decisions D19, D28; log 16). -/
def State.keyIndex (s : State) (k : Nat) : Except State Key :=
  if h : k < numKeys then .ok ⟨k, h⟩ else .error (s.halt .invalidKey)

/-! ### The screen (44_display.md R202, R203) -/

/-- The pixel at a place on the grid. -/
def Screen.pixel (p : Screen) (x : Fin screenW) (y : Fin screenH) : Bool := (p[x])[y]

/-- The screen with the pixel at a place on the grid changed to `b`. -/
def Screen.setPixel (p : Screen) (x : Fin screenW) (y : Fin screenH) (b : Bool) : Screen := Vector.set p x ((p[x]).set y b)

/-- pix[x mod 64][y mod 32] (44_display.md R202). -/
def State.pixel (s : State) (x y : Nat) : Bool := Screen.pixel s.pix (Fin.ofNat screenW x) (Fin.ofNat screenH y)

/-- The screen with every pixel unset (44_display.md R200). -/
def Screen.clear : Screen := .replicate screenW (.replicate screenH false)

/-- XOR a 1 bit into one pixel; the second component is whether a pixel went from set to unset so far. -/
def flipPixel (acc : Screen × Bool) (place : Fin screenW × Fin screenH) : Screen × Bool :=
  (Screen.setPixel acc.1 place.1 place.2 (!Screen.pixel acc.1 place.1 place.2), acc.2 || Screen.pixel acc.1 place.1 place.2)

/-- The places of a row's 1 bits, bit 7 leftmost, wrapped on both axes. -/
def rowPixels (x y : Nat) (row : Byte) : List (Fin screenW × Fin screenH) :=
  ((List.range spriteWidth).filter (fun col => row.getLsbD (spriteWidth - 1 - col))).map
    (fun col => (Fin.ofNat screenW (x + col), Fin.ofNat screenH y))

/-- The places of a sprite's 1 bits in the order the blit visits them: row by row downward. -/
def spritePixels (x y : Nat) (rows : List Byte) : List (Fin screenW × Fin screenH) :=
  match rows with
  | [] => []
  | row :: rest => rowPixels x y row ++ spritePixels x (y + 1) rest

/-- draw_sprite(x, y, rows): the new screen and the collision (44_display.md R203). -/
def drawSprite (x y : Nat) (rows : List Byte) (p : Screen) : Screen × Bool :=
  (spritePixels x y rows).foldl flipPixel (p, false)

end Sys2Proof.Machine
end

