-- ==== Sys2Proof/Machine/Operands.lean ====
section
/-! DEFINITION. The operand forms: what an instruction computes its effect from, beyond a register and a literal. Each
quirk of 00_scope.md R10 is an argument here, so that both readings can be tested; the meanings pass the value of
Machine/Params.lean. -/

namespace Sys2Proof.Machine

open Sys2Proof.Config

/-- A 12-bit literal as an address: zext_16(NNN) (30_encoding.md R74). -/
def zext16 (nnn : Addr12) : Word := nnn.setWidth 16

/-- A register's value as a 16-bit number (30_encoding.md R74; 00_scope.md R12). -/
def byteToWord (b : Byte) : Word := b.setWidth 16

/-- The source of a shift: V[X], or V[Y] with SHIFT_SOURCE_VY (42_alu.md R149, R151). -/
def shiftSource (useVY : Bool) (x y : Reg) (s : State) : Byte := if useVY then s.reg y else s.reg x

/-- X = w[11:8] of a BNNN word, which is the top digit of its NNN (40_control_flow.md R104). -/
def jumpRegister (nnn : Addr12) : Reg := (nnn.extractLsb' 8 4).toFin

/-- The offset of BNNN: V[0], or V[X] with JUMP_OFFSET_USES_VX (40_control_flow.md R104). -/
def jumpOffset (useVX : Bool) (nnn : Addr12) (s : State) : Byte :=
  if useVX then s.reg (jumpRegister nnn) else s.reg 0

/-- V0 to VF in rising order (10_state.md R21). -/
def allRegs : List Reg := List.finRange numV

/-- The registers V0 to VX in rising order (43_index_memory.md R184, R185). -/
def regsUpTo (x : Reg) : List Reg := allRegs.take (x.val + 1)

/-- I after a completed FX55 or FX65: unchanged, or moved past the transfer with LOADSTORE_INCREMENTS_I
(43_index_memory.md R184, R185). -/
def indexAfterTransfer (increments : Bool) (i : Word) (x : Reg) : Word :=
  if increments then i + .ofNat 16 (x.val + 1) else i

/-- The last action of FX55 and FX65: the update of I, left out when the transfer has raised. -/
def finishTransfer (increments : Bool) (x : Reg) (r : Except State State) : Except State State :=
  match r with
  | .ok s => .ok (s.setI (indexAfterTransfer increments s.i x))
  | .error h => .error h

/-- The decimal digits of a byte: hundreds, tens, ones (43_index_memory.md R183). PRESUMED: the digit count and order
are general knowledge in the spec (log 25). -/
def bcdDigits (b : Byte) : List Byte :=
  [.ofNat 8 (b.toNat / 100), .ofNat 8 (b.toNat / 10 % 10), .ofNat 8 (b.toNat % 10)]

/-- The address of the glyph for a register's low digit (43_index_memory.md R182). -/
def glyphAddress (b : Byte) : Word := .ofNat 16 (fontBase + glyphBytes * (b &&& 0x0F).toNat)

end Sys2Proof.Machine
end

