-- ==== Sys2Proof/Machine/Alu.lean ====
section
/-! DEFINITION. Register arithmetic and logic (42_alu.md). Operands are read from the state on entry; a flag is
written last (R140). -/

namespace Sys2Proof.Machine

open Sys2Proof.Config

/-- LD VX, NN (42_alu.md R141). -/
def execLdImm (x : Reg) (nn : Byte) (s : State) : Host.Outcome State Fault Refusal :=
  .next (s.setReg x nn)

/-- ADD VX, NN: no carry to VF (42_alu.md R142). -/
def execAddImm (x : Reg) (nn : Byte) (s : State) : Host.Outcome State Fault Refusal :=
  .next (s.setReg x (s.reg x + nn))

/-- LD VX, VY (42_alu.md R143). -/
def execLdReg (x y : Reg) (s : State) : Host.Outcome State Fault Refusal :=
  .next (s.setReg x (s.reg y))

/-- OR VX, VY: VF unchanged (42_alu.md R144; decision D11; log 12). -/
def execOrReg (x y : Reg) (s : State) : Host.Outcome State Fault Refusal :=
  .next (s.setReg x (s.reg x ||| s.reg y))

/-- AND VX, VY: VF unchanged (42_alu.md R145; decision D11; log 12). -/
def execAndReg (x y : Reg) (s : State) : Host.Outcome State Fault Refusal :=
  .next (s.setReg x (s.reg x &&& s.reg y))

/-- XOR VX, VY: VF unchanged (42_alu.md R146; decision D11; log 12). -/
def execXorReg (x y : Reg) (s : State) : Host.Outcome State Fault Refusal :=
  .next (s.setReg x (s.reg x ^^^ s.reg y))

/-- ADD VX, VY with the carry in VF (42_alu.md R147). -/
def execAddReg (x y : Reg) (s : State) : Host.Outcome State Fault Refusal :=
  .next (s.setRegFlag x (s.reg x + s.reg y) (carryFlag (s.reg x) (s.reg y)))

/-- SUB VX, VY with NOT borrow in VF (42_alu.md R148). -/
def execSubReg (x y : Reg) (s : State) : Host.Outcome State Fault Refusal :=
  .next (s.setRegFlag x (s.reg x - s.reg y) (noBorrowFlag (s.reg x) (s.reg y)))

/-- SHR VX: the bit shifted out in VF (42_alu.md R149). -/
def execShr (x y : Reg) (s : State) : Host.Outcome State Fault Refusal :=
  .next (s.setRegFlag x (shiftSource shiftSourceVY x y s >>> 1) (shrFlag (shiftSource shiftSourceVY x y s)))

/-- SUBN VX, VY: V[Y] - V[X], with NOT borrow in VF (42_alu.md R150). -/
def execSubnReg (x y : Reg) (s : State) : Host.Outcome State Fault Refusal :=
  .next (s.setRegFlag x (s.reg y - s.reg x) (noBorrowFlag (s.reg y) (s.reg x)))

/-- SHL VX: the bit shifted out in VF (42_alu.md R151). -/
def execShl (x y : Reg) (s : State) : Host.Outcome State Fault Refusal :=
  .next (s.setRegFlag x (shiftSource shiftSourceVY x y s <<< 1) (shlFlag (shiftSource shiftSourceVY x y s)))

/-- RND VX, NN: a fresh free byte, masked (42_alu.md R152; decision D20; log 2). -/
def execRnd (x : Reg) (nn : Byte) (s : State) : Host.Outcome State Fault Refusal :=
  .next { s.setReg x (randomByte s.draws &&& nn) with draws := s.draws + 1 }

end Sys2Proof.Machine
end

