-- ==== Sys2Proof/Machine/ControlFlow.lean ====
section
/-! DEFINITION. SYS, RET, JP, CALL, JP V0 (40_control_flow.md). On entry pc is past the instruction's word. -/

namespace Sys2Proof.Machine

/-- SYS NNN raises IllegalInstruction (40_control_flow.md R100; decision D24; log 18). -/
def execSys (_nnn : Addr12) (s : State) : Host.Outcome State Fault Refusal :=
  endStep (.error (s.halt .illegalInstruction))

/-- RET: pc <- Pop() (40_control_flow.md R101). -/
def execRet (s : State) : Host.Outcome State Fault Refusal :=
  endStep <| match s.pop with
    | .error h => .error h
    | .ok (target, s') => .ok (s'.setPc target)

/-- JP NNN (40_control_flow.md R102). -/
def execJp (nnn : Addr12) (s : State) : Host.Outcome State Fault Refusal :=
  .next (s.setPc (zext16 nnn))

/-- CALL NNN: Push(pc), then pc <- NNN (40_control_flow.md R103). -/
def execCall (nnn : Addr12) (s : State) : Host.Outcome State Fault Refusal :=
  endStep <| match s.push s.pc with
    | .error h => .error h
    | .ok s' => .ok (s'.setPc (zext16 nnn))

/-- JP V0, NNN: no 12-bit mask on the sum (40_control_flow.md R104; decision D9). -/
def execJpV0 (nnn : Addr12) (s : State) : Host.Outcome State Fault Refusal :=
  .next (s.setPc (zext16 nnn + byteToWord (jumpOffset jumpOffsetUsesVX nnn s)))

end Sys2Proof.Machine
end

