-- ==== Sys2Proof/Machine/Display.lean ====
section
/-! DEFINITION. CLS and DRW (44_display.md). -/

namespace Sys2Proof.Machine

/-- CLS (44_display.md R200). -/
def execCls (s : State) : Host.Outcome State Fault Refusal :=
  .next (s.setPix Screen.clear)

/-- Draw the rows at (x, y) and set VF to the collision result. -/
def State.drawRows (s : State) (x y : Nat) (rows : List Byte) : State :=
  (s.setPix (drawSprite x y rows s.pix).1).setReg vf (flag (drawSprite x y rows s.pix).2)

/-- DRW VX, VY, N: the coordinates and all rows are read before the screen or VF changes (44_display.md R201;
N = 0 is decision D18, log 19). -/
def execDrw (x y : Reg) (n : Fin 16) (s : State) : Host.Outcome State Fault Refusal :=
  endStep <| match s.readBytes s.i.toNat n.val with
    | .error h => .error h
    | .ok rows => .ok (s.drawRows (s.reg x).toNat (s.reg y).toNat rows)

end Sys2Proof.Machine
end

