-- ==== Sys2Proof/Machine/IndexMemory.lean ====
section
/-! DEFINITION. The index register and the memory transfers (43_index_memory.md). -/

namespace Sys2Proof.Machine

/-- LD I, NNN (43_index_memory.md R180). -/
def execLdI (nnn : Addr12) (s : State) : Host.Outcome State Fault Refusal :=
  .next (s.setI (zext16 nnn))

/-- ADD I, VX: modulo 2^16, no flag (43_index_memory.md R181; decision D15; log 12). -/
def execAddIVx (x : Reg) (s : State) : Host.Outcome State Fault Refusal :=
  .next (s.setI (s.i + byteToWord (s.reg x)))

/-- LD F, VX (43_index_memory.md R182). -/
def execLdFVx (x : Reg) (s : State) : Host.Outcome State Fault Refusal :=
  .next (s.setI (glyphAddress (s.reg x)))

/-- LD B, VX (43_index_memory.md R183, R186). -/
def execLdBVx (x : Reg) (s : State) : Host.Outcome State Fault Refusal :=
  endStep (s.writeBytes s.i.toNat (bcdDigits (s.reg x)))

/-- LD [I], VX (43_index_memory.md R184, R186). -/
def execLdMemVx (x : Reg) (s : State) : Host.Outcome State Fault Refusal :=
  endStep (finishTransfer loadStoreIncrementsI x (s.writeBytes s.i.toNat ((regsUpTo x).map s.reg)))

/-- LD VX, [I] (43_index_memory.md R185, R186). -/
def execLdVxMem (x : Reg) (s : State) : Host.Outcome State Fault Refusal :=
  endStep (finishTransfer loadStoreIncrementsI x (s.loadRegs s.i.toNat (regsUpTo x)))

end Sys2Proof.Machine
end

