-- ==== Sys2Proof/Machine/KeyboardTimers.lean ====
section
/-! DEFINITION. The keyboard and timer instructions (45_keyboard_timers.md). -/

namespace Sys2Proof.Machine

/-- SKP VX (45_keyboard_timers.md R220, R221). -/
def execSkp (x : Reg) (s : State) : Host.Outcome State Fault Refusal :=
  endStep <| match s.keyIndex (s.reg x).toNat with
    | .error h => .error h
    | .ok k => .ok (s.skip (s.keyDown k))

/-- SKNP VX (45_keyboard_timers.md R220, R222). -/
def execSknp (x : Reg) (s : State) : Host.Outcome State Fault Refusal :=
  endStep <| match s.keyIndex (s.reg x).toNat with
    | .error h => .error h
    | .ok k => .ok (s.skip (!s.keyDown k))

/-- LD VX, DT (45_keyboard_timers.md R225). -/
def execLdVxDt (x : Reg) (s : State) : Host.Outcome State Fault Refusal :=
  .next (s.setReg x s.dt)

/-- LD VX, K: back onto the instruction, and wait; the host's press completes it (45_keyboard_timers.md R226;
decision D21; log 17). -/
def execLdVxK (x : Reg) (s : State) : Host.Outcome State Fault Refusal :=
  .next ((s.setPc (s.pc - instrLength)).setMode (.waitingForKey x))

/-- LD DT, VX (45_keyboard_timers.md R228). -/
def execLdDtVx (x : Reg) (s : State) : Host.Outcome State Fault Refusal :=
  .next (s.setDt (s.reg x))

/-- LD ST, VX (45_keyboard_timers.md R229). -/
def execLdStVx (x : Reg) (s : State) : Host.Outcome State Fault Refusal :=
  .next (s.setSt (s.reg x))

end Sys2Proof.Machine
end

