-- ==== Sys2Proof/Machine/Skips.lean ====
section
/-! DEFINITION. SE and SNE (41_skips.md). -/

namespace Sys2Proof.Machine

/-- SE VX, NN (41_skips.md R121). -/
def execSeImm (x : Reg) (nn : Byte) (s : State) : Host.Outcome State Fault Refusal :=
  .next (s.skip (s.reg x == nn))

/-- SNE VX, NN (41_skips.md R122). -/
def execSneImm (x : Reg) (nn : Byte) (s : State) : Host.Outcome State Fault Refusal :=
  .next (s.skip (s.reg x != nn))

/-- SE VX, VY (41_skips.md R123). -/
def execSeReg (x y : Reg) (s : State) : Host.Outcome State Fault Refusal :=
  .next (s.skip (s.reg x == s.reg y))

/-- SNE VX, VY (41_skips.md R124). -/
def execSneReg (x y : Reg) (s : State) : Host.Outcome State Fault Refusal :=
  .next (s.skip (s.reg x != s.reg y))

end Sys2Proof.Machine
end

