-- ==== Sys2Proof/Machine/Cycle.lean ====
section
/-! DEFINITION. The fetch-decode-execute cycle (30_encoding.md R70). -/

namespace Sys2Proof.Machine

/-- Run one instruction word whose fetch and advance are done: `execute ins`, or IllegalInstruction for a word that is
no instruction (30_encoding.md R76). -/
def runWord (w : Word) (s : State) : Host.Outcome State Fault Refusal :=
  match decodeWord w with
  | .ok i => exec i s
  | .error _ => endStep (.error (s.halt .illegalInstruction))

/-- Fetch, advance pc by INSTR_BYTES, decode and execute, in that order; a failed fetch leaves pc on its address
(30_encoding.md R70; 60_exceptions.md R253, R254). -/
def runNext (s : State) : Host.Outcome State Fault Refusal :=
  match s.fetchWord s.pc.toNat with
  | .error h => endStep (.error h)
  | .ok w => runWord w (s.setPc (s.pc + instrLength))

/-- `execute_next()`: nothing happens in Halted and WaitingForKey (30_encoding.md R70; 45_keyboard_timers.md R227;
60_exceptions.md R252). -/
def executeNext (s : State) : Host.Outcome State Fault Refusal :=
  match s.mode with
  | .halted _ => .next s
  | .waitingForKey _ => .next s
  | .ready => runNext s

end Sys2Proof.Machine
end

