-- ==== Sys2Proof/Machine/HostCalls.lean ====
section
/-! DEFINITION. The host interface (00_scope.md R9): what each call does to the state and what it returns. Every call
but `execute_next()` acts in every mode (60_exceptions.md R252; decision D23; log 16). -/

namespace Sys2Proof.Machine

open Sys2Proof.Config

/-- What a call returns to the host (log 23). -/
inductive Reply where
  /-- the call is done; `execute_next()` returns Ok (30_encoding.md R70) -/
  | ok
  /-- `execute_next()` in, or just into, WaitingForKey (30_encoding.md R70) -/
  | waiting
  /-- Failed(kind) (60_exceptions.md R251) -/
  | failed (kind : ErrorKind)
  /-- the Boolean of `is_down` or `is_set` -/
  | bool (b : Bool)
  /-- the logical key of `map`, none if the host key is unbound (45_keyboard_timers.md R237) -/
  | logicalKey (k : Option Key)
  /-- the value of ST (45_keyboard_timers.md R242) -/
  | byte (b : Byte)
deriving DecidableEq, Repr

/-- The state after a call and what the call returned. -/
structure Answer where
  /-- the state after the call -/
  state : State
  /-- what the host gets back -/
  reply : Reply
deriving DecidableEq, Repr

/-- `raise Halt(kind)` in a host call: halt and return Failed(kind), the kind of this error even where the first kind
is kept (60_exceptions.md R251; decision D23). -/
def raiseTo (s : State) (kind : ErrorKind) : Answer := ⟨s.halt kind, .failed kind⟩

/-- What `execute_next()` returns, read off the mode it leaves (30_encoding.md R70). -/
def modeReply (m : Mode) : Reply :=
  match m with
  | .ready => .ok
  | .waitingForKey _ => .waiting
  | .halted kind => .failed kind

/-- `execute_next()` as a host call. -/
def callExecuteNext (s : State) : Host.Outcome Answer Fault Refusal :=
  match executeNext s with
  | .next t => .next ⟨t, modeReply t.mode⟩
  | .fault f => .fault f
  | .refused r => .refused r

/-- `load(bytes, length)`: the bound is checked before any byte is copied (20_memory.md R58; decision D26; log 26). -/
def callLoad (bytes : List Byte) (length : Nat) (s : State) : Host.Outcome Answer Fault Refusal :=
  if memSize < loadAddr + length then .next (raiseTo s .capacityExceeded)
  else if bytes.length < length then .refused .loadBufferTooShort
  else .next ⟨s.setMem (Memory.writeList s.mem loadAddr (bytes.take length)), .ok⟩

/-- A list of bindings is an injective map: no host key and no logical key stands in it twice (10_state.md R35). -/
abbrev Binding.isInjectiveMap (t : Binding) : Prop :=
  t.Pairwise (fun c d => c.1 ≠ d.1) ∧ t.Pairwise (fun c d => c.2 ≠ d.2)

/-- The form in which a state holds its table: an injective map listed by rising host key (log 4). -/
abbrev Binding.wf (t : Binding) : Prop :=
  t.Pairwise (fun c d => c.1.id < d.1.id) ∧ t.Pairwise (fun c d => c.2 ≠ d.2)

/-- Put a binding before the first one with a higher host key. -/
def Binding.insert (t : Binding) (b : HostKey × Key) : Binding :=
  match t with
  | [] => [b]
  | c :: rest => if b.1.id < c.1.id then b :: c :: rest else c :: Binding.insert rest b

/-- The same bindings by rising host key. -/
def Binding.sorted (t : Binding) : Binding :=
  match t with
  | [] => []
  | b :: rest => Binding.insert (Binding.sorted rest) b

/-- The logical key a table binds a host key to. -/
def Binding.lookup (t : Binding) (k : HostKey) : Option Key :=
  match t with
  | [] => none
  | c :: rest => if c.1 = k then some c.2 else Binding.lookup rest k

/-- `bind(map)` replaces the table (45_keyboard_timers.md R236). -/
def callBind (t : Binding) (s : State) : Host.Outcome Answer Fault Refusal :=
  if Binding.isInjectiveMap t then .next ⟨{ s with binding := Binding.sorted t }, .ok⟩
  else .refused .bindingNotInjective

/-- `map(host_key)` looks a host key up (45_keyboard_timers.md R237). -/
def callMap (k : HostKey) (s : State) : Answer := ⟨s, .logicalKey (Binding.lookup s.binding k)⟩

/-- The key event of `press` ends a wait: V[x] <- k, pc moves past the FX0A, and the core is ready again
(45_keyboard_timers.md R238). -/
def State.endWait (s : State) (k : Key) : State :=
  match s.mode with
  | .waitingForKey x => ((s.setReg x (.ofNat 8 k.val)).setPc (s.pc + instrLength)).setMode .ready
  | .ready => s
  | .halted _ => s

/-- `press(k)` (45_keyboard_timers.md R238). -/
def callPress (k : Nat) (s : State) : Answer :=
  match s.keyIndex k with
  | .error h => ⟨h, .failed .invalidKey⟩
  | .ok k => ⟨(s.setKey k true).endWait k, .ok⟩

/-- `release(k)` (45_keyboard_timers.md R239). -/
def callRelease (k : Nat) (s : State) : Answer :=
  match s.keyIndex k with
  | .error h => ⟨h, .failed .invalidKey⟩
  | .ok k => ⟨s.setKey k false, .ok⟩

/-- `is_down(k)` (45_keyboard_timers.md R240). -/
def callIsDown (k : Nat) (s : State) : Answer :=
  match s.keyIndex k with
  | .error h => ⟨h, .failed .invalidKey⟩
  | .ok k => ⟨s, .bool (s.keyDown k)⟩

/-- A timer's value after one tick: one less, never below 0 (45_keyboard_timers.md R241). -/
def tickDown (b : Byte) : Byte := if b = 0 then 0 else b - 1

/-- `tick_timers()` (45_keyboard_timers.md R241). -/
def callTickTimers (s : State) : Answer := ⟨(s.setDt (tickDown s.dt)).setSt (tickDown s.st), .ok⟩

/-- `is_set(x, y)` (44_display.md R202). -/
def callIsSet (x y : Nat) (s : State) : Answer := ⟨s, .bool (s.pixel x y)⟩

/-- The host's read of ST (45_keyboard_timers.md R242). -/
def callReadST (s : State) : Answer := ⟨s, .byte s.st⟩

/-- One call of the host interface (00_scope.md R9). -/
def perform (c : HostCall) (s : State) : Host.Outcome Answer Fault Refusal :=
  match c with
  | .reinit => .next ⟨Machine.reinit s, .ok⟩
  | .load bytes length => callLoad bytes length s
  | .bind t => callBind t s
  | .map k => .next (callMap k s)
  | .press k => .next (callPress k s)
  | .release k => .next (callRelease k s)
  | .isDown k => .next (callIsDown k s)
  | .executeNext => callExecuteNext s
  | .tickTimers => .next (callTickTimers s)
  | .isSet x y => .next (callIsSet x y s)
  | .readST => .next (callReadST s)

/-- HostKey, the open parameter (00_scope.md R10; decision D30): the host's own type `H` of key identifiers, with the
name under which a state holds each. The model takes it as an argument; nothing but equality of names is ever used
(log 3). -/
structure HostKeys (H : Type) where
  /-- the name of a host key -/
  name : H → HostKey
  /-- two host keys have two names -/
  injective : ∀ g h, name g = name h → g = h

/-- `bind(map)` of a host whose keys are `H`, the map listed in any order (45_keyboard_timers.md R236). -/
def HostKeys.bindCall {H : Type} (host : HostKeys H) (map : List (H × Key)) : HostCall :=
  .bind (map.map (fun c => (host.name c.1, c.2)))

/-- `map(host_key)` of a host whose keys are `H` (45_keyboard_timers.md R237). -/
def HostKeys.mapCall {H : Type} (host : HostKeys H) (hostKey : H) : HostCall := .map (host.name hostKey)

/-- The call the host makes next; a host with no call left in its list calls `execute_next()` (log 1). -/
def State.nextCall (s : State) : HostCall := s.hostCalls.headD .executeNext

/-- The state with that call taken off the list. -/
def State.dropCall (s : State) : State := { s with hostCalls := s.hostCalls.tail }

/-- Forget what a call returned. -/
def answerState (r : Host.Outcome Answer Fault Refusal) : Host.Outcome State Fault Refusal :=
  match r with
  | .next a => .next a.state
  | .fault f => .fault f
  | .refused r => .refused r

/-- One call of the host, whichever comes next (00_scope.md R8). -/
def hostStep (s : State) : Host.Outcome State Fault Refusal := answerState (perform s.nextCall s.dropCall)

/-- Where `withFetchWord` puts a word: at pc, or at LOAD_ADDR where pc can fetch nothing (log 24). -/
def fetchPlace (pc : Word) : Word := if pc.toNat + 1 < memSize then pc else .ofNat 16 loadAddr

/-- The calls with `execute_next()` next (log 24). -/
def executeFirst (calls : List HostCall) : List HostCall :=
  match calls with
  | [] => []
  | .executeNext :: rest => .executeNext :: rest
  | c :: rest => .executeNext :: c :: rest

/-- The state made ready to run the word `w` in its next step (log 24). -/
def placeWord (s : State) (w : Word) : State :=
  { s with
    pc := fetchPlace s.pc
    mode := .ready
    hostCalls := executeFirst s.hostCalls
    mem := Memory.writeList s.mem (fetchPlace s.pc).toNat (wordBytes w) }

end Sys2Proof.Machine
end

