-- ==== Sys2Proof/Safety.lean ====
section
/-! DEFINITION. The terms claims are stated in: which parts of the state an action leaves alone, what a halt leaves, the
machine's invariant, the end of a run and a safe run. -/

namespace Sys2Proof.Machine

open Sys2Proof.Config

/-- A part of the state that a frame can name. -/
inductive Part where
  /-- one general register -/
  | reg (x : Reg)
  /-- the index register -/
  | i
  /-- the program counter -/
  | pc
  /-- the stack pointer -/
  | sp
  /-- one stack entry -/
  | entry (j : Fin stackDepth)
  /-- the delay timer -/
  | dt
  /-- the sound timer -/
  | st
  /-- one logical key -/
  | key (k : Key)
  /-- one pixel -/
  | pixel (x : Fin screenW) (y : Fin screenH)
  /-- the execution mode -/
  | mode
  /-- one byte of memory -/
  | byte (a : Nat)
  /-- the key binding table -/
  | binding
  /-- the count of random bytes drawn -/
  | draws
  /-- the host's later calls -/
  | hostCalls
deriving DecidableEq, Repr

/-- The part reads the same in `t` as in `s`. -/
def Part.same (p : Part) (s t : State) : Prop :=
  match p with
  | .reg x => t.reg x = s.reg x
  | .i => t.i = s.i
  | .pc => t.pc = s.pc
  | .sp => t.sp = s.sp
  | .entry j => t.stack[j] = s.stack[j]
  | .dt => t.dt = s.dt
  | .st => t.st = s.st
  | .key k => t.keyDown k = s.keyDown k
  | .pixel x y => Screen.pixel t.pix x y = Screen.pixel s.pix x y
  | .mode => t.mode = s.mode
  | .byte a => t.byte a = s.byte a
  | .binding => t.binding = s.binding
  | .draws => t.draws = s.draws
  | .hostCalls => t.hostCalls = s.hostCalls

/-- Every part outside `touched` reads in `t` as it did in `s`. -/
def Frame (touched : Part → Prop) (s t : State) : Prop := ∀ p, ¬ touched p → p.same s t

/-- `t` is halted as raising `kind` in `s` leaves it: the first kind is kept (60_exceptions.md R251; decision D23,
log 16). -/
def HaltedWith (kind : ErrorKind) (s t : State) : Prop :=
  (∀ k, s.mode = .halted k → t.mode = .halted k) ∧ ((∀ k, s.mode ≠ .halted k) → t.mode = .halted kind)

/-- What every step keeps: memory in its canonical form (20_memory.md R50), an injective binding table (10_state.md
R35), pc at most 0x10FE (10_state.md R25), stacked return addresses at most 0x1000 (40_control_flow.md R101), and pc
at most 0x0FFE while a key is waited for, since a word was fetched there (45_keyboard_timers.md R226; that pc stands
there is decision D21, log 17). -/
structure Inv (s : State) : Prop where
  /-- memory is canonical -/
  mem : Memory.wf s.mem
  /-- the binding table is an injective map -/
  binding : Binding.wf s.binding
  /-- pc never nears 2^16 -/
  pc : s.pc.toNat ≤ 0x10FE
  /-- a return address is one past a fetched word -/
  stack : ∀ j : Fin stackDepth, s.stack[j].toNat ≤ 0x1000
  /-- a waiting pc is at most the last address a word can be fetched at -/
  waiting : ∀ x, s.mode = .waitingForKey x → s.pc.toNat ≤ 0x0FFE

/-- Every fetch that covers address `a` reads `b` there: the word at `a` has it as its high byte, the word at the
address before as its low byte (20_memory.md R57). -/
def State.fetches (s : State) (a : Nat) (b : Byte) : Prop :=
  (a + 1 < memSize → ∃ w, s.fetchWord a = .ok w ∧ w.toNat / 0x100 = b.toNat) ∧
  (∀ p, p + 1 = a → a < memSize → ∃ w, s.fetchWord p = .ok w ∧ w.toNat % 0x100 = b.toNat)

/-- The end of a run: Halted, or ready to run a jump to its own address (00_scope.md R17; decision D31). -/
def Ended (s : State) : Prop :=
  (∃ k, s.mode = .halted k) ∨
  (s.mode = .ready ∧ ∃ w nnn, s.fetchWord s.pc.toNat = .ok w ∧ decodeWord w = .ok (.jp nnn) ∧ zext16 nnn = s.pc)

/-- No error has ended execution (60_exceptions.md R251). -/
def State.unhalted (s : State) : Prop := ∀ k, s.mode ≠ .halted k

/-- A safe run of `n` steps: each of them has a next state that no error has ended. -/
def SafeRun (n : Nat) (s : State) : Prop :=
  ∀ m, m ≤ n → ∃ t, Host.Core.run Sys2Proof.core m s = .next t ∧ State.unhalted t

end Sys2Proof.Machine
end

