-- ==== Sys2Proof/Certificates/Slice0/Obligations.lean ====
section
/-! DEFINITION. The statements for the provers. A statement about `exec` is about the state on entry to the instruction,
whose pc is already past the instruction's word (30_encoding.md R70). `Frame touched s t` says that every part of the
state outside `touched` is unchanged. Marks D<n> are the spec's own decisions (92_eei_decisions.md), G<n> its
general-knowledge passages (93_implementation_defined.md). -/

open Sys2Proof Sys2Proof.Machine

/-! ### Encoding -/

/-- Every row of the opcode table: the words of its pattern, for every operand value, decode to its instruction
(30_encoding.md R72, R76, R77). The patterns other than 00E0, 1NNN, 6XNN and 7XNN are G1 and G2 (log 10). -/
def Obligations.OpcodeTableWordsDecode : Prop :=
  ∀ (x y n : Fin 16) (nn : Byte) (nnn : Addr12),
    (nnn ≠ 0x0E0 → nnn ≠ 0x0EE → decodeWord (.ofNat 16 nnn.toNat) = .ok (.sys nnn)) ∧
    decodeWord 0x00E0 = .ok .cls ∧
    decodeWord 0x00EE = .ok .ret ∧
    decodeWord (.ofNat 16 (0x1000 + nnn.toNat)) = .ok (.jp nnn) ∧
    decodeWord (.ofNat 16 (0x2000 + nnn.toNat)) = .ok (.call nnn) ∧
    decodeWord (.ofNat 16 (0x3000 + 0x100 * x.val + nn.toNat)) = .ok (.seImm x nn) ∧
    decodeWord (.ofNat 16 (0x4000 + 0x100 * x.val + nn.toNat)) = .ok (.sneImm x nn) ∧
    decodeWord (.ofNat 16 (0x5000 + 0x100 * x.val + 0x10 * y.val)) = .ok (.seReg x y) ∧
    decodeWord (.ofNat 16 (0x6000 + 0x100 * x.val + nn.toNat)) = .ok (.ldImm x nn) ∧
    decodeWord (.ofNat 16 (0x7000 + 0x100 * x.val + nn.toNat)) = .ok (.addImm x nn) ∧
    decodeWord (.ofNat 16 (0x8000 + 0x100 * x.val + 0x10 * y.val)) = .ok (.ldReg x y) ∧
    decodeWord (.ofNat 16 (0x8001 + 0x100 * x.val + 0x10 * y.val)) = .ok (.orReg x y) ∧
    decodeWord (.ofNat 16 (0x8002 + 0x100 * x.val + 0x10 * y.val)) = .ok (.andReg x y) ∧
    decodeWord (.ofNat 16 (0x8003 + 0x100 * x.val + 0x10 * y.val)) = .ok (.xorReg x y) ∧
    decodeWord (.ofNat 16 (0x8004 + 0x100 * x.val + 0x10 * y.val)) = .ok (.addReg x y) ∧
    decodeWord (.ofNat 16 (0x8005 + 0x100 * x.val + 0x10 * y.val)) = .ok (.subReg x y) ∧
    decodeWord (.ofNat 16 (0x8006 + 0x100 * x.val + 0x10 * y.val)) = .ok (.shr x y) ∧
    decodeWord (.ofNat 16 (0x8007 + 0x100 * x.val + 0x10 * y.val)) = .ok (.subnReg x y) ∧
    decodeWord (.ofNat 16 (0x800E + 0x100 * x.val + 0x10 * y.val)) = .ok (.shl x y) ∧
    decodeWord (.ofNat 16 (0x9000 + 0x100 * x.val + 0x10 * y.val)) = .ok (.sneReg x y) ∧
    decodeWord (.ofNat 16 (0xA000 + nnn.toNat)) = .ok (.ldI nnn) ∧
    decodeWord (.ofNat 16 (0xB000 + nnn.toNat)) = .ok (.jpV0 nnn) ∧
    decodeWord (.ofNat 16 (0xC000 + 0x100 * x.val + nn.toNat)) = .ok (.rnd x nn) ∧
    decodeWord (.ofNat 16 (0xD000 + 0x100 * x.val + 0x10 * y.val + n.val)) = .ok (.drw x y n) ∧
    decodeWord (.ofNat 16 (0xE09E + 0x100 * x.val)) = .ok (.skp x) ∧
    decodeWord (.ofNat 16 (0xE0A1 + 0x100 * x.val)) = .ok (.sknp x) ∧
    decodeWord (.ofNat 16 (0xF007 + 0x100 * x.val)) = .ok (.ldVxDt x) ∧
    decodeWord (.ofNat 16 (0xF00A + 0x100 * x.val)) = .ok (.ldVxK x) ∧
    decodeWord (.ofNat 16 (0xF015 + 0x100 * x.val)) = .ok (.ldDtVx x) ∧
    decodeWord (.ofNat 16 (0xF018 + 0x100 * x.val)) = .ok (.ldStVx x) ∧
    decodeWord (.ofNat 16 (0xF01E + 0x100 * x.val)) = .ok (.addIVx x) ∧
    decodeWord (.ofNat 16 (0xF029 + 0x100 * x.val)) = .ok (.ldFVx x) ∧
    decodeWord (.ofNat 16 (0xF033 + 0x100 * x.val)) = .ok (.ldBVx x) ∧
    decodeWord (.ofNat 16 (0xF055 + 0x100 * x.val)) = .ok (.ldMemVx x) ∧
    decodeWord (.ofNat 16 (0xF065 + 0x100 * x.val)) = .ok (.ldVxMem x)

/-- The words that are no instruction are exactly the undefined codes of 30_encoding.md R83 (decision D25; R83 is marked
derived). The SYS words, its first row, decode to `sys`. -/
def Obligations.IllegalWordsAreTheUndefinedCodes : Prop :=
  ∀ w : Word, (∃ e, decodeWord w = .error e) ↔
    ((w.toNat / 0x1000 = 0x5 ∨ w.toNat / 0x1000 = 0x9) ∧ w.toNat % 0x10 ≠ 0) ∨
    (w.toNat / 0x1000 = 0x8 ∧ w.toNat % 0x10 ∈ [0x8, 0x9, 0xA, 0xB, 0xC, 0xD, 0xF]) ∨
    (w.toNat / 0x1000 = 0xE ∧ w.toNat % 0x100 ∉ [0x9E, 0xA1]) ∨
    (w.toNat / 0x1000 = 0xF ∧ w.toNat % 0x100 ∉ [0x07, 0x0A, 0x15, 0x18, 0x1E, 0x29, 0x33, 0x55, 0x65])

/-- Decoding the word of a well-formed instruction gives the instruction back, every operand at every value: no operand
bit is dropped (30_encoding.md R72, R73, R76). -/
def Obligations.DecodeEncodeRoundTrip : Prop :=
  ∀ i : Instr, i.wellFormed = true → decodeWord (encode i) = .ok i

/-- Each instruction word has one meaning: what decodes to `i` is the word of `i`, and `i` is well formed
(30_encoding.md R76, R84). -/
def Obligations.EncodeDecodeRoundTrip : Prop :=
  ∀ (w : Word) (i : Instr), decodeWord w = .ok i → i.wellFormed = true ∧ encode i = w

/-- R71: an instruction is two bytes, the byte at the lower address first, and a decoder always consumes two; a shorter
input holds none. -/
def Obligations.DecoderConsumesTwoBytes : Prop :=
  (∀ (bytes rest : List Byte) (i : Instr), decode bytes = .ok (i, rest) ↔
    ∃ (hi lo : Byte) (w : Word),
      bytes = hi :: lo :: rest ∧ w.toNat = 0x100 * hi.toNat + lo.toNat ∧ decodeWord w = .ok i) ∧
  (∀ bytes : List Byte, bytes.length < 2 → decode bytes = .error .shortInput)

/-- A sanity statement: one word of each of the sixteen families, by top nibble (30_encoding.md R73), decodes to what it
stands for. The words 00E0, 1200, 6A02 and 7A05 are the document's own, the others have the patterns of G1 and G2
(log 10). -/
def Obligations.SampleWordsDecode : Prop :=
  decodeWord 0x00E0 = .ok .cls ∧ decodeWord 0x1200 = .ok (.jp 0x200) ∧
  decodeWord 0x2300 = .ok (.call 0x300) ∧ decodeWord 0x3342 = .ok (.seImm 3 0x42) ∧
  decodeWord 0x4342 = .ok (.sneImm 3 0x42) ∧ decodeWord 0x5120 = .ok (.seReg 1 2) ∧
  decodeWord 0x6A02 = .ok (.ldImm 10 2) ∧ decodeWord 0x7A05 = .ok (.addImm 10 5) ∧
  decodeWord 0x8126 = .ok (.shr 1 2) ∧ decodeWord 0x9120 = .ok (.sneReg 1 2) ∧
  decodeWord 0xA2F0 = .ok (.ldI 0x2F0) ∧ decodeWord 0xB300 = .ok (.jpV0 0x300) ∧
  decodeWord 0xC10F = .ok (.rnd 1 0x0F) ∧ decodeWord 0xD125 = .ok (.drw 1 2 5) ∧
  decodeWord 0xE5A1 = .ok (.sknp 5) ∧ decodeWord 0xF255 = .ok (.ldMemVx 2)

/-! ### The cycle -/

/-- R70: in Ready, when the two bytes at pc decode to `i` and the host calls `execute_next()` next, a step is `exec i` on
the state with that call taken and pc moved on by 2. -/
def Obligations.StepRunsDecodedInstruction : Prop :=
  ∀ (s : State) (i : Instr) (rest : List Byte),
    s.mode = .ready → s.nextCall = .executeNext → s.pc.toNat + 1 < 4096 →
    decode (s.byte s.pc.toNat :: s.byte (s.pc.toNat + 1) :: rest) = .ok (i, rest) →
    step s = exec i (s.dropCall.setPc (s.pc + 2))

/-- A word placed with `withFetchWord` is what the very next step runs, from any state (log 24; this is the model's own
device, not a rule of the spec). -/
def Obligations.PlacedWordRunsNext : Prop :=
  ∀ (s : State) (w : Nat) (i : Instr), decodeTableWord 16 w = some i →
    step (s.withFetchWord 16 w) =
      exec i ((s.withFetchWord 16 w).dropCall.setPc ((s.withFetchWord 16 w).pc + 2))

/-- R57: FetchWord reads two bytes as a big-endian word, at any address, and raises OutOfBounds exactly when the second
byte lies outside memory. -/
def Obligations.FetchIsBigEndianAndBounded : Prop :=
  ∀ (s : State) (a : Nat),
    (a + 1 < 4096 → ∃ w, s.fetchWord a = .ok w ∧ w.toNat = 0x100 * (s.byte a).toNat + (s.byte (a + 1)).toNat) ∧
    (4096 ≤ a + 1 → ∃ t, s.fetchWord a = .error t ∧ HaltedWith .outOfBounds s t ∧ Frame (· = .mode) s t)

/-- R253, R254: a fetch past memory halts with pc on its address, and a word that is no instruction halts with pc 2
further; nothing else changes (both rows of R253 are marked derived; that such a word halts is decision D25, log 18). -/
def Obligations.FetchAndDecodeErrorsHalt : Prop :=
  ∀ s : State, s.mode = .ready →
    (4096 ≤ s.pc.toNat + 1 →
      ∃ t, executeNext s = .next t ∧ t.mode = .halted .outOfBounds ∧ Frame (· = .mode) s t) ∧
    (∀ w e, s.fetchWord s.pc.toNat = .ok w → decodeWord w = .error e →
      ∃ t, executeNext s = .next t ∧ t.mode = .halted .illegalInstruction ∧ t.pc = s.pc + 2 ∧
        Frame (fun p => p = .mode ∨ p = .pc) s t)

/-- R227 and R252: `execute_next()` changes nothing in WaitingForKey and in Halted, and returns Waiting and Failed
(decisions D22, D23). -/
def Obligations.IdleModesDoNothing : Prop :=
  ∀ s : State,
    (∀ x, s.mode = .waitingForKey x → perform .executeNext s = .next ⟨s, .waiting⟩) ∧
    (∀ k, s.mode = .halted k → perform .executeNext s = .next ⟨s, .failed k⟩)

/-! ### Memory -/

/-- R56: MemWrite stores the byte, every other address reads as before, nothing else changes; outside memory it raises
OutOfBounds and stores nothing. -/
def Obligations.MemWriteStoresOneByte : Prop :=
  ∀ (s : State) (a : Nat) (b : Byte),
    (a < 4096 → ∃ t, s.memWrite a b = .ok t ∧ t.byte a = b ∧ Frame (· = .byte a) s t) ∧
    (4096 ≤ a → ∃ t, s.memWrite a b = .error t ∧ HaltedWith .outOfBounds s t ∧ Frame (· = .mode) s t)

/-- The model's memory is canonical: two memories in the form that read alike at every address are the same list
(log 27; the form is the model's own). -/
def Obligations.CanonicalMemoryIsItsReads : Prop :=
  ∀ m n : Memory, Memory.wf m → Memory.wf n → (∀ a, Memory.read m a = Memory.read n a) → m = n

/-- R67: a byte that a completed FX55 or FX33 stores is what every fetch that covers its address reads there, the next
fetch included (R67 is marked derived). Which register or digit lies at which address is general knowledge, G5 and G4
(log 25). -/
def Obligations.StoredCodeIsFetchedNext : Prop :=
  ∀ s : State,
    (∀ x j : Reg, j ≤ x → s.i.toNat + x.val < 4096 →
      ∃ t, exec (.ldMemVx x) s = .next t ∧ t.fetches (s.i.toNat + j.val) (s.reg j)) ∧
    (∀ x : Reg, s.i.toNat + 2 < 4096 →
      ∃ t, exec (.ldBVx x) s = .next t ∧
        t.fetches s.i.toNat (.ofNat 8 ((s.reg x).toNat / 100)) ∧
        t.fetches (s.i.toNat + 1) (.ofNat 8 ((s.reg x).toNat / 10 % 10)) ∧
        t.fetches (s.i.toNat + 2) (.ofNat 8 ((s.reg x).toNat % 10)))

/-! ### Control flow -/

/-- R100: SYS raises IllegalInstruction and changes nothing but the mode (decision D24). -/
def Obligations.SysHaltsAsIllegal : Prop :=
  ∀ (s : State) (nnn : Addr12),
    ∃ t, exec (.sys nnn) s = .next t ∧ HaltedWith .illegalInstruction s t ∧ Frame (· = .mode) s t

/-- R101, R31: RET pops the newest entry into pc; on an empty stack it raises CapacityExceeded and changes nothing but
the mode. -/
def Obligations.RetPopsOrHalts : Prop :=
  ∀ s : State,
    (∀ j : Fin 16, s.sp.val = j.val + 1 →
      ∃ t, exec .ret s = .next t ∧ t.pc = s.stack[j] ∧ t.sp.val = j.val ∧
        Frame (fun p => p = .pc ∨ p = .sp) s t) ∧
    (s.sp.val = 0 →
      ∃ t, exec .ret s = .next t ∧ HaltedWith .capacityExceeded s t ∧ Frame (· = .mode) s t)

/-- R102: JP sets pc to its zero-extended literal and changes nothing else; its words are 1NNN; a target of 0xFFF makes
the next fetch raise OutOfBounds; a jump to its own address leaves the whole state as it is. -/
def Obligations.JpSetsPc : Prop :=
  ∀ (s : State) (nnn : Addr12),
    decodeWord (.ofNat 16 (0x1000 + nnn.toNat)) = .ok (.jp nnn) ∧
    (∃ t, exec (.jp nnn) s = .next t ∧ t.pc.toNat = nnn.toNat ∧ Frame (· = .pc) s t ∧
      (nnn = 0xFFF → s.mode = .ready →
        ∃ u, executeNext t = .next u ∧ u.mode = .halted .outOfBounds ∧ u.pc = 0xFFF)) ∧
    (s.mode = .ready → s.pc.toNat = nnn.toNat →
      s.fetchWord s.pc.toNat = .ok (.ofNat 16 (0x1000 + nnn.toNat)) → executeNext s = .next s)

/-- R103, R30: CALL pushes the address after it and jumps; on a full stack it raises CapacityExceeded, pc is not the
target, and the stack is unchanged (R30 is decision D4, the pushed address is marked derived). -/
def Obligations.CallPushesOrHalts : Prop :=
  ∀ (s : State) (nnn : Addr12),
    (∀ j : Fin 16, s.sp.val = j.val →
      ∃ t, exec (.call nnn) s = .next t ∧ t.pc.toNat = nnn.toNat ∧ t.sp.val = j.val + 1 ∧ t.stack[j] = s.pc ∧
        Frame (fun p => p = .pc ∨ p = .sp ∨ p = .entry j) s t) ∧
    (s.sp.val = 16 →
      ∃ t, exec (.call nnn) s = .next t ∧ HaltedWith .capacityExceeded s t ∧ Frame (· = .mode) s t)

/-- R104: JP V0 adds the offset register to the literal without a 12-bit mask and changes nothing else. The offset is
V0, or V[X] under JUMP_OFFSET_USES_VX (decisions D9, D17). -/
def Obligations.JpV0AddsOffset : Prop :=
  ∀ (s : State) (nnn : Addr12) (x : Reg), x.val = nnn.toNat / 0x100 →
    ∃ t, exec (.jpV0 nnn) s = .next t ∧
      t.pc.toNat = nnn.toNat + (if jumpOffsetUsesVX then s.reg x else s.reg 0).toNat ∧ Frame (· = .pc) s t

/-! ### Skips -/

/-- R120 to R122: SE and SNE with a literal move pc on by 2 when V[X] equals, or differs from, the literal, and change
nothing else. -/
def Obligations.LiteralSkipsMovePcOnly : Prop :=
  ∀ (s : State) (x : Reg) (nn : Byte),
    (∃ t, exec (.seImm x nn) s = .next t ∧ t.pc = (if s.reg x = nn then s.pc + 2 else s.pc) ∧ Frame (· = .pc) s t) ∧
    (∃ t, exec (.sneImm x nn) s = .next t ∧ t.pc = (if s.reg x = nn then s.pc else s.pc + 2) ∧ Frame (· = .pc) s t)

/-- R120, R123, R124: SE and SNE with a register move pc on by 2 when the two registers agree, or differ, and change
nothing else; with X = Y, SE always skips and SNE never does. -/
def Obligations.RegisterSkipsMovePcOnly : Prop :=
  ∀ (s : State) (x y : Reg),
    (∃ t, exec (.seReg x y) s = .next t ∧ t.pc = (if s.reg x = s.reg y then s.pc + 2 else s.pc) ∧
      (x = y → t.pc = s.pc + 2) ∧ Frame (· = .pc) s t) ∧
    (∃ t, exec (.sneReg x y) s = .next t ∧ t.pc = (if s.reg x = s.reg y then s.pc else s.pc + 2) ∧
      (x = y → t.pc = s.pc) ∧ Frame (· = .pc) s t)

/-! ### Arithmetic and logic -/

/-- R141, R142: 6XNN loads the literal and 7XNN adds it modulo 256; no other register changes, VF included unless it is
V[X], and nothing else does; the words are 6XNN and 7XNN. -/
def Obligations.LiteralLoadAndAdd : Prop :=
  ∀ (s : State) (x : Reg) (nn : Byte),
    decodeWord (.ofNat 16 (0x6000 + 0x100 * x.val + nn.toNat)) = .ok (.ldImm x nn) ∧
    decodeWord (.ofNat 16 (0x7000 + 0x100 * x.val + nn.toNat)) = .ok (.addImm x nn) ∧
    (∃ t, exec (.ldImm x nn) s = .next t ∧ t.reg x = nn ∧ Frame (· = .reg x) s t) ∧
    (∃ t, exec (.addImm x nn) s = .next t ∧ (t.reg x).toNat = ((s.reg x).toNat + nn.toNat) % 256 ∧
      Frame (· = .reg x) s t)

/-- R143 to R146: copy, OR, AND and XOR between registers write V[X] and nothing else, so VF only as V[X]; OR and AND of
a register with itself leave it, XOR clears it (VF after the logic operations is decision D11). -/
def Obligations.CopyAndLogicWriteVxOnly : Prop :=
  ∀ (s : State) (x y : Reg),
    (∃ t, exec (.ldReg x y) s = .next t ∧ t.reg x = s.reg y ∧ Frame (· = .reg x) s t) ∧
    (∃ t, exec (.orReg x y) s = .next t ∧ t.reg x = (s.reg x ||| s.reg y) ∧
      (x = y → t.reg x = s.reg x) ∧ Frame (· = .reg x) s t) ∧
    (∃ t, exec (.andReg x y) s = .next t ∧ t.reg x = (s.reg x &&& s.reg y) ∧
      (x = y → t.reg x = s.reg x) ∧ Frame (· = .reg x) s t) ∧
    (∃ t, exec (.xorReg x y) s = .next t ∧ t.reg x = (s.reg x ^^^ s.reg y) ∧
      (x = y → t.reg x = 0) ∧ Frame (· = .reg x) s t)

/-- R147, R140: ADD writes the sum modulo 256 and then the carry to VF, so with X = F VF holds the carry (decision D12);
nothing else changes. -/
def Obligations.AddSetsCarry : Prop :=
  ∀ (s : State) (x y : Reg),
    ∃ t, exec (.addReg x y) s = .next t ∧
      (x ≠ 15 → (t.reg x).toNat = ((s.reg x).toNat + (s.reg y).toNat) % 256) ∧
      t.reg 15 = (if 255 < (s.reg x).toNat + (s.reg y).toNat then 1 else 0) ∧
      Frame (fun p => p = .reg x ∨ p = .reg 15) s t

/-- R148, R150, R140: SUB and SUBN write the difference modulo 256 and then NOT borrow to VF, equal operands counting as
no borrow (decisions D12, D13); nothing else changes. -/
def Obligations.SubtractSetsNotBorrow : Prop :=
  ∀ (s : State) (x y : Reg),
    (∃ t, exec (.subReg x y) s = .next t ∧
      (x ≠ 15 → (t.reg x).toNat = ((s.reg x).toNat + 256 - (s.reg y).toNat) % 256) ∧
      t.reg 15 = (if (s.reg y).toNat ≤ (s.reg x).toNat then 1 else 0) ∧
      Frame (fun p => p = .reg x ∨ p = .reg 15) s t) ∧
    (∃ t, exec (.subnReg x y) s = .next t ∧
      (x ≠ 15 → (t.reg x).toNat = ((s.reg y).toNat + 256 - (s.reg x).toNat) % 256) ∧
      t.reg 15 = (if (s.reg x).toNat ≤ (s.reg y).toNat then 1 else 0) ∧
      Frame (fun p => p = .reg x ∨ p = .reg 15) s t)

/-- R149, R151, R140: SHR and SHL shift their source by one bit and then put the bit shifted out in VF; the source is
V[X], or V[Y] under SHIFT_SOURCE_VY (decisions D12, D14); nothing else changes. -/
def Obligations.ShiftsSetBitShiftedOut : Prop :=
  ∀ (s : State) (x y : Reg) (src : Byte), src = (if shiftSourceVY then s.reg y else s.reg x) →
    (∃ t, exec (.shr x y) s = .next t ∧ (x ≠ 15 → (t.reg x).toNat = src.toNat / 2) ∧
      (t.reg 15).toNat = src.toNat % 2 ∧ Frame (fun p => p = .reg x ∨ p = .reg 15) s t) ∧
    (∃ t, exec (.shl x y) s = .next t ∧ (x ≠ 15 → (t.reg x).toNat = src.toNat * 2 % 256) ∧
      (t.reg 15).toNat = src.toNat / 128 ∧ Frame (fun p => p = .reg x ∨ p = .reg 15) s t)

/-- R152: RND writes a free byte masked by the literal, takes the next free byte for the next time, and changes nothing
else, VF included unless it is V[X]; a zero mask gives zero (decision D20; log 2). -/
def Obligations.RndMasksAFreshByte : Prop :=
  ∀ (s : State) (x : Reg) (nn : Byte),
    ∃ t, exec (.rnd x nn) s = .next t ∧ t.reg x = (Config.randomByte s.draws &&& nn) ∧
      (nn = 0 → t.reg x = 0) ∧ t.draws = s.draws + 1 ∧ Frame (fun p => p = .reg x ∨ p = .draws) s t

/-! ### Index register and memory transfers -/

/-- R180 to R182: LD I, ADD I and LD F write I (zero-extended literal; the sum modulo 2^16, unmasked and with no flag;
the address of the glyph of the low digit) and nothing else (decisions D5, D9, D15). -/
def Obligations.IndexInstructionsWriteIOnly : Prop :=
  ∀ (s : State) (x : Reg) (nnn : Addr12),
    (∃ t, exec (.ldI nnn) s = .next t ∧ t.i.toNat = nnn.toNat ∧ Frame (· = .i) s t) ∧
    (∃ t, exec (.addIVx x) s = .next t ∧ t.i.toNat = (s.i.toNat + (s.reg x).toNat) % 65536 ∧ Frame (· = .i) s t) ∧
    (∃ t, exec (.ldFVx x) s = .next t ∧ t.i.toNat = fontBase + 5 * ((s.reg x).toNat % 16) ∧ Frame (· = .i) s t)

/-- R183, R186: LD B writes the hundreds, tens and ones of V[X] at I, I+1 and I+2, as far as memory goes; past its end
it raises OutOfBounds, the digits before stay written, and nothing else changes (digit order G4, partial transfer
D10). -/
def Obligations.BcdStoresDigits : Prop :=
  ∀ (s : State) (x : Reg),
    ∃ t, exec (.ldBVx x) s = .next t ∧
      (s.i.toNat < 4096 → (t.byte s.i.toNat).toNat = (s.reg x).toNat / 100) ∧
      (s.i.toNat + 1 < 4096 → (t.byte (s.i.toNat + 1)).toNat = (s.reg x).toNat / 10 % 10) ∧
      (s.i.toNat + 2 < 4096 → (t.byte (s.i.toNat + 2)).toNat = (s.reg x).toNat % 10) ∧
      (s.i.toNat + 2 < 4096 → t.mode = s.mode) ∧
      (4096 ≤ s.i.toNat + 2 → HaltedWith .outOfBounds s t) ∧
      Frame (fun p => p = .mode ∨ ∃ j, j < 3 ∧ s.i.toNat + j < 4096 ∧ p = .byte (s.i.toNat + j)) s t

/-- R184, R186: LD [I] writes V0 to VX at rising addresses from I, as far as memory goes; past its end it raises
OutOfBounds and the bytes before stay written. I moves past the transfer only if it completes under
LOADSTORE_INCREMENTS_I, and nothing else changes (order G5, partial transfer D10, I D16). -/
def Obligations.DumpStoresRegisters : Prop :=
  ∀ (s : State) (x : Reg),
    ∃ t, exec (.ldMemVx x) s = .next t ∧
      (∀ j : Reg, j ≤ x → s.i.toNat + j.val < 4096 → t.byte (s.i.toNat + j.val) = s.reg j) ∧
      (s.i.toNat + x.val < 4096 → t.mode = s.mode ∧
        t.i.toNat = (if loadStoreIncrementsI then (s.i.toNat + x.val + 1) % 65536 else s.i.toNat)) ∧
      (4096 ≤ s.i.toNat + x.val → HaltedWith .outOfBounds s t ∧ t.i = s.i) ∧
      Frame (fun p => p = .mode ∨ p = .i ∨
        ∃ j : Reg, j ≤ x ∧ s.i.toNat + j.val < 4096 ∧ p = .byte (s.i.toNat + j.val)) s t

/-- R185, R186: LD VX, [I] loads V0 to VX from rising addresses from I, as far as memory goes; past its end it raises
OutOfBounds and the registers before stay loaded. I moves past the transfer only if it completes under
LOADSTORE_INCREMENTS_I, and nothing else changes (order G5, partial transfer D10, I D16). -/
def Obligations.LoadFillsRegisters : Prop :=
  ∀ (s : State) (x : Reg),
    ∃ t, exec (.ldVxMem x) s = .next t ∧
      (∀ j : Reg, j ≤ x → s.i.toNat + j.val < 4096 → t.reg j = s.byte (s.i.toNat + j.val)) ∧
      (s.i.toNat + x.val < 4096 → t.mode = s.mode ∧
        t.i.toNat = (if loadStoreIncrementsI then (s.i.toNat + x.val + 1) % 65536 else s.i.toNat)) ∧
      (4096 ≤ s.i.toNat + x.val → HaltedWith .outOfBounds s t ∧ t.i = s.i) ∧
      Frame (fun p => p = .mode ∨ p = .i ∨ ∃ j : Reg, j ≤ x ∧ s.i.toNat + j.val < 4096 ∧ p = .reg j) s t

/-- R185: FX55 followed by FX65 with the same I and X restores V0 to VX, whatever the registers hold in between. -/
def Obligations.DumpThenLoadRestores : Prop :=
  ∀ (s : State) (x : Reg), s.i.toNat + x.val < 4096 →
    ∃ t, exec (.ldMemVx x) s = .next t ∧
      ∀ regs : Vector Byte 16, ∃ u, exec (.ldVxMem x) ({ t with v := regs }.setI s.i) = .next u ∧
        ∀ j : Reg, j ≤ x → u.reg j = s.reg j

/-! ### Display -/

/-- R200: CLS unsets every pixel and changes nothing else, VF included; its word is 00E0. -/
def Obligations.ClsUnsetsEveryPixel : Prop :=
  decodeWord 0x00E0 = .ok .cls ∧
  ∀ s : State, ∃ t, exec .cls s = .next t ∧ (∀ px py, Screen.pixel t.pix px py = false) ∧
    Frame (fun p => ∃ px py, p = .pixel px py) s t

/-- R201, R203: a pixel is covered by the sprite of N rows at I drawn at (V[X], V[Y]) if it lies, wrapped on both axes,
on a 1 bit of some row, most significant bit leftmost. DRW inverts exactly the covered pixels and sets VF to 1 if one of
them was set, else to 0; with N = 0 that is VF = 0 alone (decision D18). Nothing else changes. -/
def Obligations.DrwXorsTheSprite : Prop :=
  ∀ (s : State) (x y : Reg) (n : Fin 16) (covered : Fin 64 → Fin 32 → Prop),
    (∀ px py, covered px py ↔ ∃ r col, r < n.val ∧ col < 8 ∧
      (s.byte (s.i.toNat + r)).getLsbD (7 - col) = true ∧
      px.val = ((s.reg x).toNat + col) % 64 ∧ py.val = ((s.reg y).toNat + r) % 32) →
    (∀ r, r < n.val → s.i.toNat + r < 4096) →
    ∃ t, exec (.drw x y n) s = .next t ∧
      (∀ px py, covered px py → Screen.pixel t.pix px py = !Screen.pixel s.pix px py) ∧
      ((∃ px py, covered px py ∧ Screen.pixel s.pix px py = true) → t.reg 15 = 1) ∧
      ((∀ px py, covered px py → Screen.pixel s.pix px py = false) → t.reg 15 = 0) ∧
      Frame (fun p => p = .reg 15 ∨ ∃ px py, covered px py ∧ p = .pixel px py) s t

/-- R201: DRW with a row outside memory raises OutOfBounds before the screen or VF changes. -/
def Obligations.DrwOutOfBoundsDrawsNothing : Prop :=
  ∀ (s : State) (x y : Reg) (n : Fin 16) (r : Nat), r < n.val → 4096 ≤ s.i.toNat + r →
    ∃ t, exec (.drw x y n) s = .next t ∧ HaltedWith .outOfBounds s t ∧ Frame (· = .mode) s t

/-- R204, first sentence: `draw_sprite` twice with the same rows at the same place restores the screen. The second
collision says, by R203, that the first draw set some pixel; on a clear screen that is that the rows hold a 1 bit. A
sprite has at most 15 rows (R203). -/
def Obligations.DrawingTwiceRestoresTheScreen : Prop :=
  ∀ (p : Screen) (x y : Nat) (rows : List Byte), rows.length ≤ 15 →
    (drawSprite x y rows (drawSprite x y rows p).1).1 = p ∧
    ((drawSprite x y rows (drawSprite x y rows p).1).2 = true ↔
      ∃ px py, Screen.pixel p px py = false ∧ Screen.pixel (drawSprite x y rows p).1 px py = true) ∧
    ((∀ px py, Screen.pixel p px py = false) →
      ((drawSprite x y rows (drawSprite x y rows p).1).2 = true ↔ ∃ b ∈ rows, b ≠ 0))

/-- R204, second sentence as it stands, for every screen. It is marked derived there, and it does not follow from R203:
a 1 bit over a set pixel clears it in the first draw and sets it in the second, which is no collision. Expected to fail
(log 31). -/
def Obligations.SecondDrawCollidesOnEveryScreen : Prop :=
  ∀ (p : Screen) (x y : Nat) (rows : List Byte), rows.length ≤ 15 →
    ((drawSprite x y rows (drawSprite x y rows p).1).2 = true ↔ ∃ b ∈ rows, b ≠ 0)

/-! ### Keyboard and timers -/

/-- R220 to R222: SKP and SKNP move pc on by 2 when the key that V[X] names is down, or up, and change nothing else;
with V[X] of 16 or more they raise InvalidKey and change nothing but the mode (decision D19). -/
def Obligations.KeySkipsTestTheKey : Prop :=
  ∀ (s : State) (x : Reg),
    (∀ k : Key, (s.reg x).toNat = k.val →
      (∃ t, exec (.skp x) s = .next t ∧ t.pc = (if s.keyDown k then s.pc + 2 else s.pc) ∧ Frame (· = .pc) s t) ∧
      (∃ t, exec (.sknp x) s = .next t ∧ t.pc = (if s.keyDown k then s.pc else s.pc + 2) ∧ Frame (· = .pc) s t)) ∧
    (16 ≤ (s.reg x).toNat →
      (∃ t, exec (.skp x) s = .next t ∧ HaltedWith .invalidKey s t ∧ Frame (· = .mode) s t) ∧
      (∃ t, exec (.sknp x) s = .next t ∧ HaltedWith .invalidKey s t ∧ Frame (· = .mode) s t))

/-- R225, R228, R229: the three timer moves copy DT to V[X], V[X] to DT and V[X] to ST, and change nothing else. -/
def Obligations.TimerMovesCopy : Prop :=
  ∀ (s : State) (x : Reg),
    (∃ t, exec (.ldVxDt x) s = .next t ∧ t.reg x = s.dt ∧ Frame (· = .reg x) s t) ∧
    (∃ t, exec (.ldDtVx x) s = .next t ∧ t.dt = s.reg x ∧ Frame (· = .dt) s t) ∧
    (∃ t, exec (.ldStVx x) s = .next t ∧ t.st = s.reg x ∧ Frame (· = .st) s t)

/-- R226: LD VX, K puts pc back on itself and waits, and changes nothing else, whatever keys are down
(decision D21). -/
def Obligations.KeyWaitStepsBackAndWaits : Prop :=
  ∀ (s : State) (x : Reg),
    ∃ t, exec (.ldVxK x) s = .next t ∧ t.pc = s.pc - 2 ∧ t.mode = .waitingForKey x ∧
      Frame (fun p => p = .pc ∨ p = .mode) s t

/-- R226, R227, R238: a key wait from its fetch to its end. The step that runs FX0A leaves pc on it, `execute_next()`
then changes nothing, and a press of any key writes the key to V[X], moves pc past it and readies the core
(decisions D21, D22). -/
def Obligations.KeyWaitEndsWithThePress : Prop :=
  ∀ (s : State) (x : Reg) (w : Word) (k : Key),
    s.mode = .ready → s.fetchWord s.pc.toNat = .ok w → decodeWord w = .ok (.ldVxK x) →
    ∃ t u, executeNext s = .next t ∧ t.pc = s.pc ∧ t.mode = .waitingForKey x ∧ Frame (· = .mode) s t ∧
      executeNext t = .next t ∧
      perform (.press k.val) t = .next ⟨u, .ok⟩ ∧ (u.reg x).toNat = k.val ∧ u.pc = s.pc + 2 ∧ u.mode = .ready ∧
      u.keyDown k = true ∧ Frame (fun p => p = .reg x ∨ p = .pc ∨ p = .key k) s u

/-! ### Host calls -/

/-- R238 to R240: outside a wait `press` and `release` set and clear one key, and `is_down` reads one, in every mode,
and change nothing else; a release changes nothing else in a wait either; with an index of 16 or more all three return
Failed(InvalidKey), halt and change nothing else (decisions D23, D28). -/
def Obligations.KeyCallsActOnOneKey : Prop :=
  ∀ (s : State),
    (∀ k : Key,
      ((∀ x, s.mode ≠ .waitingForKey x) → ∃ t, perform (.press k.val) s = .next ⟨t, .ok⟩ ∧ t.keyDown k = true ∧
        Frame (· = .key k) s t) ∧
      (∃ t, perform (.release k.val) s = .next ⟨t, .ok⟩ ∧ t.keyDown k = false ∧ Frame (· = .key k) s t) ∧
      perform (.isDown k.val) s = .next ⟨s, .bool (s.keyDown k)⟩) ∧
    (∀ k c, 16 ≤ k → c ∈ [HostCall.press k, HostCall.release k, HostCall.isDown k] →
      ∃ t, perform c s = .next ⟨t, .failed .invalidKey⟩ ∧ HaltedWith .invalidKey s t ∧ Frame (· = .mode) s t)

/-- R241: `tick_timers()` takes 1 from each timer that is above 0, leaves one at 0, acts in every mode and changes
nothing else (in Halted, decision D23). -/
def Obligations.TickCountsEachTimerDown : Prop :=
  ∀ s : State, ∃ t, perform .tickTimers s = .next ⟨t, .ok⟩ ∧ t.dt.toNat = s.dt.toNat - 1 ∧
    t.st.toNat = s.st.toNat - 1 ∧ Frame (fun p => p = .dt ∨ p = .st) s t

/-- R58: `load` copies the first `length` bytes to 0x200 and up and changes nothing else, the reserved region included;
a program that passes the end of memory returns Failed(CapacityExceeded), halts and copies nothing (the order of the
check is decision D26, log 26, and the load address D5, log 8; `length` is at most the number of bytes handed over,
log 4). Both hold in every mode: that `load` acts in Halted, and that a second error there keeps the first kind, is
decision D23 (R252, log 16). -/
def Obligations.LoadCopiesOrHalts : Prop :=
  ∀ (s : State) (bytes : List Byte) (length : Nat),
    (length ≤ 3584 → length ≤ bytes.length →
      ∃ t, perform (.load bytes length) s = .next ⟨t, .ok⟩ ∧
        (∀ j b, j < length → bytes[j]? = some b → t.byte (0x200 + j) = b) ∧
        (∀ a, Config.reservedLo ≤ a → a ≤ Config.reservedHi → t.byte a = s.byte a) ∧
        Frame (fun p => ∃ j, j < length ∧ p = .byte (0x200 + j)) s t) ∧
    (3584 < length →
      ∃ t, perform (.load bytes length) s = .next ⟨t, .failed .capacityExceeded⟩ ∧
        HaltedWith .capacityExceeded s t ∧ Frame (· = .mode) s t)

/-- R59: after a successful `load(P, n)` the bytes read from the load address on are P's. -/
def Obligations.LoadedProgramReadsBack : Prop :=
  ∀ (s t : State) (bytes : List Byte) (n : Nat), perform (.load bytes n) s = .next ⟨t, .ok⟩ →
    ∀ j, j < n → ∃ b, bytes[j]? = some b ∧ t.memRead (loadAddr + j) = .ok b

/-- R236, R237: for any host, whatever its type of key identifiers, `bind` replaces the table by any injective map,
listed in any order and total or not, and changes no other state; `map` looks a host key up, answers none for an unbound
one, and changes nothing. That a state holds the table under names, in order, is the model's form (logs 3 and 4); that
both act in Halted is decision D23 (R252, log 16). -/
def Obligations.BindReplacesAndMapLooksUp : Prop :=
  ∀ (H : Type) (host : HostKeys H) (s : State) (table : List (H × Key)),
    table.Pairwise (fun c d => c.1 ≠ d.1) → table.Pairwise (fun c d => c.2 ≠ d.2) →
    ∃ t, perform (host.bindCall table) s = .next ⟨t, .ok⟩ ∧ Frame (· = .binding) s t ∧
      ∀ h : H,
        (∀ k, (h, k) ∈ table → perform (host.mapCall h) t = .next ⟨t, .logicalKey (some k)⟩) ∧
        ((∀ k, (h, k) ∉ table) → perform (host.mapCall h) t = .next ⟨t, .logicalKey none⟩)

/-- R202: `is_set` reads the pixel with both coordinates wrapped, in every mode, and changes nothing (in Halted,
decision D23). -/
def Obligations.IsSetReadsTheWrappedPixel : Prop :=
  ∀ (s : State) (x y : Nat) (px : Fin 64) (py : Fin 32), px.val = x % 64 → py.val = y % 32 →
    perform (.isSet x y) s = .next ⟨s, .bool (Screen.pixel s.pix px py)⟩

/-- R280, R40: `initialize()` puts the font at 0x000 and zero everywhere else in memory, zeroes every register, timer,
stack entry and the stack pointer, sets pc to 0x200, releases every key, unsets every pixel, readies the core from any
mode, and leaves the binding table (decisions D2, D3, D5, D6, D29). -/
def Obligations.InitializeRestoresTheResetState : Prop :=
  ∀ s : State, ∃ t, perform .reinit s = .next ⟨t, .ok⟩ ∧
    (∀ (g : Fin 16) (r : Fin 5), t.byte (5 * g.val + r.val) = font.getD (5 * g.val + r.val) 0) ∧
    (∀ a, 80 ≤ a → t.byte a = 0) ∧ (∀ x, t.reg x = 0) ∧ t.i = 0 ∧ t.pc = 0x200 ∧ t.sp = 0 ∧
    (∀ j : Fin 16, t.stack[j] = 0) ∧ t.dt = 0 ∧ t.st = 0 ∧ (∀ k, t.keyDown k = false) ∧
    (∀ px py, Screen.pixel t.pix px py = false) ∧ t.mode = .ready ∧ t.binding = s.binding

/-! ### Reset -/

/-- R281: after reset pc is 0x200 and the mode is Ready, and the first `execute_next()`, whatever has been loaded,
fetches the word at 0x200. -/
def Obligations.FirstFetchIsAtTheLoadAddress : Prop :=
  State.reset.pc = 0x200 ∧ State.reset.mode = .ready ∧
  ∀ (m : Memory) (w : Word) (i : Instr),
    w.toNat = 0x100 * (Memory.read m 0x200).toNat + (Memory.read m 0x201).toNat → decodeWord w = .ok i →
    step (State.reset.setMem m) = exec i ((State.reset.setMem m).setPc 0x202)

/-- Reset holds the machine's invariant (the canonical form is log 27). -/
def Obligations.ResetHoldsTheInvariant : Prop := Inv State.reset

/-! ### The whole machine -/

/-- Every step keeps the invariant, whichever host call or instruction it is: memory stays canonical (log 27), the
binding table stays an injective map in order (log 4), pc stays at most 0x10FE (10_state.md R25), stacked addresses at
most 0x1000 (40_control_flow.md R101), and pc at most 0x0FFE while a key is waited for (45_keyboard_timers.md R226; that
pc stands on its FX0A then is decision D21, log 17). -/
def Obligations.StepKeepsTheInvariant : Prop :=
  ∀ s t : State, Inv s → step s = .next t → Inv t

/-- Every instruction completes in every state: `exec` always answers a next state. No instruction of this machine ends
in a fault or a refusal (60_exceptions.md R251: an error is a state; log 15). -/
def Obligations.EveryInstructionAnswersANextState : Prop :=
  ∀ (i : Instr) (s : State), ∃ t, exec i s = .next t

/-- R252, R257: Halted is terminal. Any step but `initialize()`, be it an instruction, a tick, a key event, a load or a
second error, keeps it and its kind, and no instruction executes: only memory (`load`), keys, timers and the binding
table can change (decisions D23, D29). -/
def Obligations.HaltedIsTerminal : Prop :=
  ∀ (s t : State) (k : ErrorKind), s.mode = .halted k → s.nextCall ≠ .reinit → step s = .next t →
    t.mode = .halted k ∧ t.pc = s.pc ∧ t.i = s.i ∧ t.sp = s.sp ∧ t.stack = s.stack ∧ t.v = s.v ∧ t.pix = s.pix

/-- R264, R34: a waiting core is readied only by a press of a key below 16 or by `initialize()`; any other step leaves
it waiting for the same register or halts it on an error of a host call. That only a press after entry ends the wait is
decision D21 (log 17; R34 carries the mark), and that a key index of 16 or more halts is decision D28 (log 16). -/
def Obligations.OnlyAPressWakes : Prop :=
  ∀ (s t : State) (x : Reg), s.mode = .waitingForKey x → step s = .next t →
    t.mode = .waitingForKey x ∨
    (t.mode = .ready ∧ (s.nextCall = .reinit ∨ ∃ k, k < 16 ∧ s.nextCall = .press k)) ∨
    (t.mode = .halted .capacityExceeded ∧ ∃ bytes n, s.nextCall = .load bytes n) ∨
    (t.mode = .halted .invalidKey ∧
      ∃ k, 16 ≤ k ∧ s.nextCall ∈ [HostCall.press k, HostCall.release k, HostCall.isDown k])

/-- R250, R254, R34: which instruction can leave Ready, and how. FX0A waits (decision D21, log 17); each error kind
comes only from the instructions the table of R250 names (SYS is decision D24, log 18; the stack's depth D4, log 20; a
key index from a register D19, log 16); everything else stays Ready. -/
def Obligations.InstructionsLeaveReadyAsTabled : Prop :=
  ∀ (i : Instr) (s t : State), s.mode = .ready → exec i s = .next t →
    t.mode = .ready ∨
    (∃ x, i = .ldVxK x ∧ t.mode = .waitingForKey x) ∨
    (t.mode = .halted .illegalInstruction ∧ ∃ nnn, i = .sys nnn) ∨
    (t.mode = .halted .capacityExceeded ∧ (i = .ret ∨ ∃ nnn, i = .call nnn)) ∨
    (t.mode = .halted .invalidKey ∧ ∃ x, i = .skp x ∨ i = .sknp x) ∨
    (t.mode = .halted .outOfBounds ∧
      ∃ x, (∃ y n, i = .drw x y n) ∨ i = .ldBVx x ∨ i = .ldMemVx x ∨ i = .ldVxMem x)

/-- R28, R32, R33, R54: no instruction but CLS and DRW changes the screen, none but CALL and RET the stack, none but LD B
and LD [I] a byte of memory, and none at all a key or the binding table. That the stack is no part of memory, so that
CALL and RET store no byte, is decision D4 (R28, log 20); R54 is marked derived. -/
def Obligations.StateIsWrittenByItsOwnersOnly : Prop :=
  ∀ (i : Instr) (s t : State), exec i s = .next t →
    (i ≠ .cls → (∀ x y n, i ≠ .drw x y n) → t.pix = s.pix) ∧
    (i ≠ .ret → (∀ nnn, i ≠ .call nnn) → t.sp = s.sp ∧ t.stack = s.stack) ∧
    ((∀ x, i ≠ .ldBVx x) → (∀ x, i ≠ .ldMemVx x) → ∀ a, t.byte a = s.byte a) ∧
    t.key = s.key ∧ t.binding = s.binding

/-- R36, R286: VF is changed only by the six flag writers and by an instruction whose destination it is (both rules are
marked derived). That OR, AND, XOR leave it is decision D11, and that FX1E leaves it decision D15 (log 12). -/
def Obligations.VfHasOnlyItsWriters : Prop :=
  ∀ (i : Instr) (s t : State), exec i s = .next t → t.reg 15 ≠ s.reg 15 →
    (∃ x y, i = .addReg x y ∨ i = .subReg x y ∨ i = .subnReg x y ∨ i = .shr x y ∨ i = .shl x y ∨ ∃ n, i = .drw x y n) ∨
    (∃ nn, i = .ldImm 15 nn ∨ i = .addImm 15 nn ∨ i = .rnd 15 nn) ∨
    (∃ y, i = .ldReg 15 y ∨ i = .orReg 15 y ∨ i = .andReg 15 y ∨ i = .xorReg 15 y) ∨
    i = .ldVxDt 15 ∨ i = .ldVxMem 15

/-- R26, R23: DT is changed by no instruction but FX15, and I by none but ANNN, FX1E and FX29 (and FX55 and FX65 under
LOADSTORE_INCREMENTS_I, decision D16). -/
def Obligations.DelayTimerAndIndexHaveOnlyTheirWriters : Prop :=
  ∀ (i : Instr) (s t : State), exec i s = .next t →
    ((∀ x, i ≠ .ldDtVx x) → t.dt = s.dt) ∧
    (t.i ≠ s.i → (∃ nnn, i = .ldI nnn) ∨ ∃ x, i = .addIVx x ∨ i = .ldFVx x ∨
      (loadStoreIncrementsI = true ∧ (i = .ldMemVx x ∨ i = .ldVxMem x)))

/-- R27: ST is changed only by FX18 and `tick_timers()` (and by a reset), no instruction reads it, and the host reads
it. Not reading it: with any other value of ST in the state before, an instruction gives the same state after but for
that value, and FX18 gives the very same. -/
def Obligations.NoInstructionReadsTheSoundTimer : Prop :=
  (∀ (i : Instr) (s t : State) (b : Byte), exec i s = .next t →
    ((∀ x, i ≠ .ldStVx x) → t.st = s.st ∧ exec i (s.setSt b) = .next (t.setSt b)) ∧
    ((∃ x, i = .ldStVx x) → exec i (s.setSt b) = .next t)) ∧
  (∀ (c : HostCall) (s : State) (a : Answer), c ≠ .tickTimers → c ≠ .reinit → c ≠ .executeNext →
    perform c s = .next a → a.state.st = s.st) ∧
  (∀ s : State, perform .readST s = .next ⟨s, .byte s.st⟩)

/-- R17: once a run has ended, in Halted or at a jump to its own address, `execute_next()` changes nothing (that the
self-jump is an end is decision D31). -/
def Obligations.EndedRunsStayEnded : Prop :=
  ∀ s : State, Ended s → executeNext s = .next s
end

