-- ==== Sys2Proof/Laws/State.lean ====
section
/-! SUPPORT. One lemma for each field under each named update of the state, and what the reads of a register, a byte, a
key and a pixel give under each, so that no later proof unfolds a record update. -/

namespace Sys2Proof.Machine

open Sys2Proof.Config

section Fields

variable (s : State)

@[simp] theorem State.setReg_mem (x : Reg) (b : Byte) : (s.setReg x b).mem = s.mem := rfl
@[simp] theorem State.setReg_v (x : Reg) (b : Byte) : (s.setReg x b).v = s.v.set x b := rfl
@[simp] theorem State.setReg_i (x : Reg) (b : Byte) : (s.setReg x b).i = s.i := rfl
@[simp] theorem State.setReg_pc (x : Reg) (b : Byte) : (s.setReg x b).pc = s.pc := rfl
@[simp] theorem State.setReg_sp (x : Reg) (b : Byte) : (s.setReg x b).sp = s.sp := rfl
@[simp] theorem State.setReg_stack (x : Reg) (b : Byte) : (s.setReg x b).stack = s.stack := rfl
@[simp] theorem State.setReg_dt (x : Reg) (b : Byte) : (s.setReg x b).dt = s.dt := rfl
@[simp] theorem State.setReg_st (x : Reg) (b : Byte) : (s.setReg x b).st = s.st := rfl
@[simp] theorem State.setReg_key (x : Reg) (b : Byte) : (s.setReg x b).key = s.key := rfl
@[simp] theorem State.setReg_pix (x : Reg) (b : Byte) : (s.setReg x b).pix = s.pix := rfl
@[simp] theorem State.setReg_mode (x : Reg) (b : Byte) : (s.setReg x b).mode = s.mode := rfl
@[simp] theorem State.setReg_binding (x : Reg) (b : Byte) : (s.setReg x b).binding = s.binding := rfl
@[simp] theorem State.setReg_draws (x : Reg) (b : Byte) : (s.setReg x b).draws = s.draws := rfl
@[simp] theorem State.setReg_hostCalls (x : Reg) (b : Byte) : (s.setReg x b).hostCalls = s.hostCalls := rfl

@[simp] theorem State.setI_mem (w : Word) : (s.setI w).mem = s.mem := rfl
@[simp] theorem State.setI_v (w : Word) : (s.setI w).v = s.v := rfl
@[simp] theorem State.setI_i (w : Word) : (s.setI w).i = w := rfl
@[simp] theorem State.setI_pc (w : Word) : (s.setI w).pc = s.pc := rfl
@[simp] theorem State.setI_sp (w : Word) : (s.setI w).sp = s.sp := rfl
@[simp] theorem State.setI_stack (w : Word) : (s.setI w).stack = s.stack := rfl
@[simp] theorem State.setI_dt (w : Word) : (s.setI w).dt = s.dt := rfl
@[simp] theorem State.setI_st (w : Word) : (s.setI w).st = s.st := rfl
@[simp] theorem State.setI_key (w : Word) : (s.setI w).key = s.key := rfl
@[simp] theorem State.setI_pix (w : Word) : (s.setI w).pix = s.pix := rfl
@[simp] theorem State.setI_mode (w : Word) : (s.setI w).mode = s.mode := rfl
@[simp] theorem State.setI_binding (w : Word) : (s.setI w).binding = s.binding := rfl
@[simp] theorem State.setI_draws (w : Word) : (s.setI w).draws = s.draws := rfl
@[simp] theorem State.setI_hostCalls (w : Word) : (s.setI w).hostCalls = s.hostCalls := rfl

@[simp] theorem State.setPc_mem (w : Word) : (s.setPc w).mem = s.mem := rfl
@[simp] theorem State.setPc_v (w : Word) : (s.setPc w).v = s.v := rfl
@[simp] theorem State.setPc_i (w : Word) : (s.setPc w).i = s.i := rfl
@[simp] theorem State.setPc_pc (w : Word) : (s.setPc w).pc = w := rfl
@[simp] theorem State.setPc_sp (w : Word) : (s.setPc w).sp = s.sp := rfl
@[simp] theorem State.setPc_stack (w : Word) : (s.setPc w).stack = s.stack := rfl
@[simp] theorem State.setPc_dt (w : Word) : (s.setPc w).dt = s.dt := rfl
@[simp] theorem State.setPc_st (w : Word) : (s.setPc w).st = s.st := rfl
@[simp] theorem State.setPc_key (w : Word) : (s.setPc w).key = s.key := rfl
@[simp] theorem State.setPc_pix (w : Word) : (s.setPc w).pix = s.pix := rfl
@[simp] theorem State.setPc_mode (w : Word) : (s.setPc w).mode = s.mode := rfl
@[simp] theorem State.setPc_binding (w : Word) : (s.setPc w).binding = s.binding := rfl
@[simp] theorem State.setPc_draws (w : Word) : (s.setPc w).draws = s.draws := rfl
@[simp] theorem State.setPc_hostCalls (w : Word) : (s.setPc w).hostCalls = s.hostCalls := rfl

@[simp] theorem State.setDt_mem (b : Byte) : (s.setDt b).mem = s.mem := rfl
@[simp] theorem State.setDt_v (b : Byte) : (s.setDt b).v = s.v := rfl
@[simp] theorem State.setDt_i (b : Byte) : (s.setDt b).i = s.i := rfl
@[simp] theorem State.setDt_pc (b : Byte) : (s.setDt b).pc = s.pc := rfl
@[simp] theorem State.setDt_sp (b : Byte) : (s.setDt b).sp = s.sp := rfl
@[simp] theorem State.setDt_stack (b : Byte) : (s.setDt b).stack = s.stack := rfl
@[simp] theorem State.setDt_dt (b : Byte) : (s.setDt b).dt = b := rfl
@[simp] theorem State.setDt_st (b : Byte) : (s.setDt b).st = s.st := rfl
@[simp] theorem State.setDt_key (b : Byte) : (s.setDt b).key = s.key := rfl
@[simp] theorem State.setDt_pix (b : Byte) : (s.setDt b).pix = s.pix := rfl
@[simp] theorem State.setDt_mode (b : Byte) : (s.setDt b).mode = s.mode := rfl
@[simp] theorem State.setDt_binding (b : Byte) : (s.setDt b).binding = s.binding := rfl
@[simp] theorem State.setDt_draws (b : Byte) : (s.setDt b).draws = s.draws := rfl
@[simp] theorem State.setDt_hostCalls (b : Byte) : (s.setDt b).hostCalls = s.hostCalls := rfl

@[simp] theorem State.setSt_mem (b : Byte) : (s.setSt b).mem = s.mem := rfl
@[simp] theorem State.setSt_v (b : Byte) : (s.setSt b).v = s.v := rfl
@[simp] theorem State.setSt_i (b : Byte) : (s.setSt b).i = s.i := rfl
@[simp] theorem State.setSt_pc (b : Byte) : (s.setSt b).pc = s.pc := rfl
@[simp] theorem State.setSt_sp (b : Byte) : (s.setSt b).sp = s.sp := rfl
@[simp] theorem State.setSt_stack (b : Byte) : (s.setSt b).stack = s.stack := rfl
@[simp] theorem State.setSt_dt (b : Byte) : (s.setSt b).dt = s.dt := rfl
@[simp] theorem State.setSt_st (b : Byte) : (s.setSt b).st = b := rfl
@[simp] theorem State.setSt_key (b : Byte) : (s.setSt b).key = s.key := rfl
@[simp] theorem State.setSt_pix (b : Byte) : (s.setSt b).pix = s.pix := rfl
@[simp] theorem State.setSt_mode (b : Byte) : (s.setSt b).mode = s.mode := rfl
@[simp] theorem State.setSt_binding (b : Byte) : (s.setSt b).binding = s.binding := rfl
@[simp] theorem State.setSt_draws (b : Byte) : (s.setSt b).draws = s.draws := rfl
@[simp] theorem State.setSt_hostCalls (b : Byte) : (s.setSt b).hostCalls = s.hostCalls := rfl

@[simp] theorem State.setPix_mem (p : Screen) : (s.setPix p).mem = s.mem := rfl
@[simp] theorem State.setPix_v (p : Screen) : (s.setPix p).v = s.v := rfl
@[simp] theorem State.setPix_i (p : Screen) : (s.setPix p).i = s.i := rfl
@[simp] theorem State.setPix_pc (p : Screen) : (s.setPix p).pc = s.pc := rfl
@[simp] theorem State.setPix_sp (p : Screen) : (s.setPix p).sp = s.sp := rfl
@[simp] theorem State.setPix_stack (p : Screen) : (s.setPix p).stack = s.stack := rfl
@[simp] theorem State.setPix_dt (p : Screen) : (s.setPix p).dt = s.dt := rfl
@[simp] theorem State.setPix_st (p : Screen) : (s.setPix p).st = s.st := rfl
@[simp] theorem State.setPix_key (p : Screen) : (s.setPix p).key = s.key := rfl
@[simp] theorem State.setPix_pix (p : Screen) : (s.setPix p).pix = p := rfl
@[simp] theorem State.setPix_mode (p : Screen) : (s.setPix p).mode = s.mode := rfl
@[simp] theorem State.setPix_binding (p : Screen) : (s.setPix p).binding = s.binding := rfl
@[simp] theorem State.setPix_draws (p : Screen) : (s.setPix p).draws = s.draws := rfl
@[simp] theorem State.setPix_hostCalls (p : Screen) : (s.setPix p).hostCalls = s.hostCalls := rfl

@[simp] theorem State.setKey_mem (k : Key) (b : Bool) : (s.setKey k b).mem = s.mem := rfl
@[simp] theorem State.setKey_v (k : Key) (b : Bool) : (s.setKey k b).v = s.v := rfl
@[simp] theorem State.setKey_i (k : Key) (b : Bool) : (s.setKey k b).i = s.i := rfl
@[simp] theorem State.setKey_pc (k : Key) (b : Bool) : (s.setKey k b).pc = s.pc := rfl
@[simp] theorem State.setKey_sp (k : Key) (b : Bool) : (s.setKey k b).sp = s.sp := rfl
@[simp] theorem State.setKey_stack (k : Key) (b : Bool) : (s.setKey k b).stack = s.stack := rfl
@[simp] theorem State.setKey_dt (k : Key) (b : Bool) : (s.setKey k b).dt = s.dt := rfl
@[simp] theorem State.setKey_st (k : Key) (b : Bool) : (s.setKey k b).st = s.st := rfl
@[simp] theorem State.setKey_key (k : Key) (b : Bool) : (s.setKey k b).key = s.key.set k b := rfl
@[simp] theorem State.setKey_pix (k : Key) (b : Bool) : (s.setKey k b).pix = s.pix := rfl
@[simp] theorem State.setKey_mode (k : Key) (b : Bool) : (s.setKey k b).mode = s.mode := rfl
@[simp] theorem State.setKey_binding (k : Key) (b : Bool) : (s.setKey k b).binding = s.binding := rfl
@[simp] theorem State.setKey_draws (k : Key) (b : Bool) : (s.setKey k b).draws = s.draws := rfl
@[simp] theorem State.setKey_hostCalls (k : Key) (b : Bool) : (s.setKey k b).hostCalls = s.hostCalls := rfl

@[simp] theorem State.setMode_mem (m : Mode) : (s.setMode m).mem = s.mem := rfl
@[simp] theorem State.setMode_v (m : Mode) : (s.setMode m).v = s.v := rfl
@[simp] theorem State.setMode_i (m : Mode) : (s.setMode m).i = s.i := rfl
@[simp] theorem State.setMode_pc (m : Mode) : (s.setMode m).pc = s.pc := rfl
@[simp] theorem State.setMode_sp (m : Mode) : (s.setMode m).sp = s.sp := rfl
@[simp] theorem State.setMode_stack (m : Mode) : (s.setMode m).stack = s.stack := rfl
@[simp] theorem State.setMode_dt (m : Mode) : (s.setMode m).dt = s.dt := rfl
@[simp] theorem State.setMode_st (m : Mode) : (s.setMode m).st = s.st := rfl
@[simp] theorem State.setMode_key (m : Mode) : (s.setMode m).key = s.key := rfl
@[simp] theorem State.setMode_pix (m : Mode) : (s.setMode m).pix = s.pix := rfl
@[simp] theorem State.setMode_mode (m : Mode) : (s.setMode m).mode = m := rfl
@[simp] theorem State.setMode_binding (m : Mode) : (s.setMode m).binding = s.binding := rfl
@[simp] theorem State.setMode_draws (m : Mode) : (s.setMode m).draws = s.draws := rfl
@[simp] theorem State.setMode_hostCalls (m : Mode) : (s.setMode m).hostCalls = s.hostCalls := rfl

@[simp] theorem State.setMem_mem (m : Memory) : (s.setMem m).mem = m := rfl
@[simp] theorem State.setMem_v (m : Memory) : (s.setMem m).v = s.v := rfl
@[simp] theorem State.setMem_i (m : Memory) : (s.setMem m).i = s.i := rfl
@[simp] theorem State.setMem_pc (m : Memory) : (s.setMem m).pc = s.pc := rfl
@[simp] theorem State.setMem_sp (m : Memory) : (s.setMem m).sp = s.sp := rfl
@[simp] theorem State.setMem_stack (m : Memory) : (s.setMem m).stack = s.stack := rfl
@[simp] theorem State.setMem_dt (m : Memory) : (s.setMem m).dt = s.dt := rfl
@[simp] theorem State.setMem_st (m : Memory) : (s.setMem m).st = s.st := rfl
@[simp] theorem State.setMem_key (m : Memory) : (s.setMem m).key = s.key := rfl
@[simp] theorem State.setMem_pix (m : Memory) : (s.setMem m).pix = s.pix := rfl
@[simp] theorem State.setMem_mode (m : Memory) : (s.setMem m).mode = s.mode := rfl
@[simp] theorem State.setMem_binding (m : Memory) : (s.setMem m).binding = s.binding := rfl
@[simp] theorem State.setMem_draws (m : Memory) : (s.setMem m).draws = s.draws := rfl
@[simp] theorem State.setMem_hostCalls (m : Memory) : (s.setMem m).hostCalls = s.hostCalls := rfl

@[simp] theorem State.dropCall_mem : (s.dropCall).mem = s.mem := rfl
@[simp] theorem State.dropCall_v : (s.dropCall).v = s.v := rfl
@[simp] theorem State.dropCall_i : (s.dropCall).i = s.i := rfl
@[simp] theorem State.dropCall_pc : (s.dropCall).pc = s.pc := rfl
@[simp] theorem State.dropCall_sp : (s.dropCall).sp = s.sp := rfl
@[simp] theorem State.dropCall_stack : (s.dropCall).stack = s.stack := rfl
@[simp] theorem State.dropCall_dt : (s.dropCall).dt = s.dt := rfl
@[simp] theorem State.dropCall_st : (s.dropCall).st = s.st := rfl
@[simp] theorem State.dropCall_key : (s.dropCall).key = s.key := rfl
@[simp] theorem State.dropCall_pix : (s.dropCall).pix = s.pix := rfl
@[simp] theorem State.dropCall_mode : (s.dropCall).mode = s.mode := rfl
@[simp] theorem State.dropCall_binding : (s.dropCall).binding = s.binding := rfl
@[simp] theorem State.dropCall_draws : (s.dropCall).draws = s.draws := rfl
@[simp] theorem State.dropCall_hostCalls : (s.dropCall).hostCalls = s.hostCalls.tail := rfl

end Fields

section Reads

variable (s : State)

@[simp] theorem State.reg_setI (w : Word) (y : Reg) : (s.setI w).reg y = s.reg y := rfl
@[simp] theorem State.reg_setPc (w : Word) (y : Reg) : (s.setPc w).reg y = s.reg y := rfl
@[simp] theorem State.reg_setDt (b : Byte) (y : Reg) : (s.setDt b).reg y = s.reg y := rfl
@[simp] theorem State.reg_setSt (b : Byte) (y : Reg) : (s.setSt b).reg y = s.reg y := rfl
@[simp] theorem State.reg_setPix (p : Screen) (y : Reg) : (s.setPix p).reg y = s.reg y := rfl
@[simp] theorem State.reg_setKey (k : Key) (b : Bool) (y : Reg) : (s.setKey k b).reg y = s.reg y := rfl
@[simp] theorem State.reg_setMode (m : Mode) (y : Reg) : (s.setMode m).reg y = s.reg y := rfl
@[simp] theorem State.reg_setMem (m : Memory) (y : Reg) : (s.setMem m).reg y = s.reg y := rfl
@[simp] theorem State.reg_dropCall (y : Reg) : (s.dropCall).reg y = s.reg y := rfl

@[simp] theorem State.byte_setReg (x : Reg) (b : Byte) (a : Nat) : (s.setReg x b).byte a = s.byte a := rfl
@[simp] theorem State.byte_setI (w : Word) (a : Nat) : (s.setI w).byte a = s.byte a := rfl
@[simp] theorem State.byte_setPc (w : Word) (a : Nat) : (s.setPc w).byte a = s.byte a := rfl
@[simp] theorem State.byte_setDt (b : Byte) (a : Nat) : (s.setDt b).byte a = s.byte a := rfl
@[simp] theorem State.byte_setSt (b : Byte) (a : Nat) : (s.setSt b).byte a = s.byte a := rfl
@[simp] theorem State.byte_setPix (p : Screen) (a : Nat) : (s.setPix p).byte a = s.byte a := rfl
@[simp] theorem State.byte_setKey (k : Key) (b : Bool) (a : Nat) : (s.setKey k b).byte a = s.byte a := rfl
@[simp] theorem State.byte_setMode (m : Mode) (a : Nat) : (s.setMode m).byte a = s.byte a := rfl
@[simp] theorem State.byte_dropCall (a : Nat) : (s.dropCall).byte a = s.byte a := rfl

@[simp] theorem State.keyDown_setReg (x : Reg) (b : Byte) (j : Key) : (s.setReg x b).keyDown j = s.keyDown j := rfl
@[simp] theorem State.keyDown_setI (w : Word) (j : Key) : (s.setI w).keyDown j = s.keyDown j := rfl
@[simp] theorem State.keyDown_setPc (w : Word) (j : Key) : (s.setPc w).keyDown j = s.keyDown j := rfl
@[simp] theorem State.keyDown_setDt (b : Byte) (j : Key) : (s.setDt b).keyDown j = s.keyDown j := rfl
@[simp] theorem State.keyDown_setSt (b : Byte) (j : Key) : (s.setSt b).keyDown j = s.keyDown j := rfl
@[simp] theorem State.keyDown_setPix (p : Screen) (j : Key) : (s.setPix p).keyDown j = s.keyDown j := rfl
@[simp] theorem State.keyDown_setMode (m : Mode) (j : Key) : (s.setMode m).keyDown j = s.keyDown j := rfl
@[simp] theorem State.keyDown_setMem (m : Memory) (j : Key) : (s.setMem m).keyDown j = s.keyDown j := rfl
@[simp] theorem State.keyDown_dropCall (j : Key) : (s.dropCall).keyDown j = s.keyDown j := rfl

@[simp] theorem State.pixel_setReg (x : Reg) (b : Byte) (px py : Nat) : (s.setReg x b).pixel px py = s.pixel px py := rfl
@[simp] theorem State.pixel_setI (w : Word) (px py : Nat) : (s.setI w).pixel px py = s.pixel px py := rfl
@[simp] theorem State.pixel_setPc (w : Word) (px py : Nat) : (s.setPc w).pixel px py = s.pixel px py := rfl
@[simp] theorem State.pixel_setDt (b : Byte) (px py : Nat) : (s.setDt b).pixel px py = s.pixel px py := rfl
@[simp] theorem State.pixel_setSt (b : Byte) (px py : Nat) : (s.setSt b).pixel px py = s.pixel px py := rfl
@[simp] theorem State.pixel_setKey (k : Key) (b : Bool) (px py : Nat) : (s.setKey k b).pixel px py = s.pixel px py := rfl
@[simp] theorem State.pixel_setMode (m : Mode) (px py : Nat) : (s.setMode m).pixel px py = s.pixel px py := rfl
@[simp] theorem State.pixel_setMem (m : Memory) (px py : Nat) : (s.setMem m).pixel px py = s.pixel px py := rfl
@[simp] theorem State.pixel_dropCall (px py : Nat) : (s.dropCall).pixel px py = s.pixel px py := rfl

/-- A register read after a register write. -/
@[simp] theorem State.reg_setReg (x y : Reg) (b : Byte) :
    (s.setReg x b).reg y = if x = y then b else s.reg y := by
  simp [State.reg, State.setReg, Vector.getElem_set, Fin.ext_iff]

/-- A key read after a key write. -/
@[simp] theorem State.keyDown_setKey (k j : Key) (b : Bool) :
    (s.setKey k b).keyDown j = if k = j then b else s.keyDown j := by
  simp [State.keyDown, State.setKey, Vector.getElem_set, Fin.ext_iff]

/-- A byte read after memory is replaced. -/
@[simp] theorem State.byte_setMem (m : Memory) (a : Nat) : (s.setMem m).byte a = Memory.read m a := rfl

/-- A pixel read after the screen is replaced. -/
@[simp] theorem State.pixel_setPix (p : Screen) (px py : Nat) :
    (s.setPix p).pixel px py = Screen.pixel p (Fin.ofNat screenW px) (Fin.ofNat screenH py) := rfl

/-- A pixel read after a pixel write. -/
@[simp] theorem Screen.pixel_setPixel (p : Screen) (x qx : Fin screenW) (y qy : Fin screenH) (b : Bool) :
    Screen.pixel (Screen.setPixel p x y b) qx qy = if x = qx ∧ y = qy then b else Screen.pixel p qx qy := by
  by_cases hx : x = qx
  · subst hx
    simp [Screen.pixel, Screen.setPixel, Vector.getElem_set, Fin.ext_iff]
  · have : x.val ≠ qx.val := fun h => hx (Fin.ext h)
    simp [Screen.pixel, Screen.setPixel, hx, this]

/-- Every pixel of the clear screen is unset. -/
@[simp] theorem Screen.pixel_clear (x : Fin screenW) (y : Fin screenH) : Screen.pixel Screen.clear x y = false := by
  simp [Screen.pixel, Screen.clear]

/-- Two screens that read alike are equal. -/
theorem Screen.ext_pixel {p q : Screen} (h : ∀ x y, Screen.pixel p x y = Screen.pixel q x y) : p = q := by
  apply Vector.ext
  intro i hi
  apply Vector.ext
  intro j hj
  exact h ⟨i, hi⟩ ⟨j, hj⟩

end Reads

/-! ### The halt -/

section Halt

variable (s : State) (kind : ErrorKind)

/-- What a halt does to the mode: the first kind is kept (60_exceptions.md R251). -/
theorem State.halt_eq : s.halt kind = s.setMode (match s.mode with | .halted k => .halted k | _ => .halted kind) := by
  unfold State.halt State.setMode
  cases s
  rename_i m _ _ _
  cases m <;> rfl

@[simp] theorem State.halt_mem : (s.halt kind).mem = s.mem := by rw [State.halt_eq]; rfl
@[simp] theorem State.halt_v : (s.halt kind).v = s.v := by rw [State.halt_eq]; rfl
@[simp] theorem State.halt_i : (s.halt kind).i = s.i := by rw [State.halt_eq]; rfl
@[simp] theorem State.halt_pc : (s.halt kind).pc = s.pc := by rw [State.halt_eq]; rfl
@[simp] theorem State.halt_sp : (s.halt kind).sp = s.sp := by rw [State.halt_eq]; rfl
@[simp] theorem State.halt_stack : (s.halt kind).stack = s.stack := by rw [State.halt_eq]; rfl
@[simp] theorem State.halt_dt : (s.halt kind).dt = s.dt := by rw [State.halt_eq]; rfl
@[simp] theorem State.halt_st : (s.halt kind).st = s.st := by rw [State.halt_eq]; rfl
@[simp] theorem State.halt_key : (s.halt kind).key = s.key := by rw [State.halt_eq]; rfl
@[simp] theorem State.halt_pix : (s.halt kind).pix = s.pix := by rw [State.halt_eq]; rfl
@[simp] theorem State.halt_binding : (s.halt kind).binding = s.binding := by rw [State.halt_eq]; rfl
@[simp] theorem State.halt_draws : (s.halt kind).draws = s.draws := by rw [State.halt_eq]; rfl
@[simp] theorem State.halt_hostCalls : (s.halt kind).hostCalls = s.hostCalls := by rw [State.halt_eq]; rfl
@[simp] theorem State.reg_halt (y : Reg) : (s.halt kind).reg y = s.reg y := by rw [State.halt_eq]; rfl
@[simp] theorem State.byte_halt (a : Nat) : (s.halt kind).byte a = s.byte a := by rw [State.halt_eq]; rfl
@[simp] theorem State.keyDown_halt (j : Key) : (s.halt kind).keyDown j = s.keyDown j := by rw [State.halt_eq]; rfl
@[simp] theorem State.pixel_halt (px py : Nat) : (s.halt kind).pixel px py = s.pixel px py := by rw [State.halt_eq]; rfl

/-- A halt of a core that is not halted records its kind. -/
theorem State.halt_mode_of_unhalted (h : ∀ k, s.mode ≠ .halted k) : (s.halt kind).mode = .halted kind := by
  unfold State.halt
  cases hm : s.mode with
  | halted k => exact absurd hm (h k)
  | ready => rfl
  | waitingForKey x => rfl

/-- A halt of a halted core changes nothing. -/
theorem State.halt_of_halted {k : ErrorKind} (h : s.mode = .halted k) : s.halt kind = s := by
  unfold State.halt
  rw [h]

end Halt

end Sys2Proof.Machine
end

