-- ==== Sys2Proof/Laws/Binding.lean ====
section
/-! SUPPORT. The binding table: putting it in order keeps its bindings and gives the form a state holds, and a lookup
finds exactly what the table lists. -/

namespace Sys2Proof.Machine

theorem Binding.mem_insert (t : Binding) (b c : HostKey × Key) : c ∈ Binding.insert t b ↔ c = b ∨ c ∈ t := by
  induction t with
  | nil => simp [Binding.insert]
  | cons d rest ih =>
    simp only [Binding.insert]
    split
    · simp
    · simp only [List.mem_cons, ih]
      tauto

/-- Ordering a table keeps its bindings. -/
@[simp] theorem Binding.mem_sorted (t : Binding) (c : HostKey × Key) : c ∈ Binding.sorted t ↔ c ∈ t := by
  induction t with
  | nil => rfl
  | cons b rest ih => simp [Binding.sorted, Binding.mem_insert, ih]

/-- Inserting a binding of a host key and a logical key that are both new keeps the form. -/
theorem Binding.wf_insert {t : Binding} (h : Binding.wf t) {b : HostKey × Key} (hb : ∀ c ∈ t, b.1 ≠ c.1 ∧ b.2 ≠ c.2) :
    Binding.wf (Binding.insert t b) := by
  induction t with
  | nil => exact ⟨List.pairwise_singleton _ _, List.pairwise_singleton _ _⟩
  | cons c rest ih =>
    obtain ⟨h1, h2⟩ := h
    obtain ⟨hc1, hr1⟩ := List.pairwise_cons.1 h1
    obtain ⟨hc2, hr2⟩ := List.pairwise_cons.1 h2
    have hbc := hb c (by simp)
    simp only [Binding.insert]
    split
    · rename_i hlt
      refine ⟨List.pairwise_cons.2 ⟨fun d hd => ?_, h1⟩, List.pairwise_cons.2 ⟨fun d hd => (hb d hd).2, h2⟩⟩
      rcases List.mem_cons.1 hd with rfl | hd
      · exact hlt
      · exact Nat.lt_trans hlt (hc1 d hd)
    · rename_i hnlt
      have hr := ih ⟨hr1, hr2⟩ (fun d hd => hb d (by simp [hd]))
      have hlt : c.1.id < b.1.id := by
        refine Nat.lt_of_le_of_ne (Nat.le_of_not_lt hnlt) fun e => hbc.1 ?_
        cases hb1 : b.1
        cases hc1 : c.1
        simp_all
      refine ⟨List.pairwise_cons.2 ⟨fun d hd => ?_, hr.1⟩, List.pairwise_cons.2 ⟨fun d hd => ?_, hr.2⟩⟩
      · rcases (Binding.mem_insert _ _ _).1 hd with rfl | hd
        · exact hlt
        · exact hc1 d hd
      · rcases (Binding.mem_insert _ _ _).1 hd with rfl | hd
        · exact hbc.2.symm
        · exact hc2 d hd

/-- An injective map, put in order, has the form a state holds. -/
theorem Binding.wf_sorted {t : Binding} (h : Binding.isInjectiveMap t) : Binding.wf (Binding.sorted t) := by
  induction t with
  | nil => exact ⟨.nil, .nil⟩
  | cons b rest ih =>
    obtain ⟨h1, h2⟩ := h
    obtain ⟨hb1, hr1⟩ := List.pairwise_cons.1 h1
    obtain ⟨hb2, hr2⟩ := List.pairwise_cons.1 h2
    exact Binding.wf_insert (ih ⟨hr1, hr2⟩) fun c hc =>
      ⟨hb1 c ((Binding.mem_sorted _ _).1 hc), hb2 c ((Binding.mem_sorted _ _).1 hc)⟩

/-- `bind` of an injective map replaces the table and changes nothing else (45_keyboard_timers.md R236). -/
theorem callBind_map (s : State) {t : Binding} (h : Binding.isInjectiveMap t) :
    callBind t s = .next ⟨{ s with binding := Binding.sorted t }, .ok⟩ := if_pos h

/-- `bind` of anything else is refused (log 4). -/
theorem callBind_other (s : State) {t : Binding} (h : ¬ Binding.isInjectiveMap t) :
    callBind t s = .refused .bindingNotInjective := if_neg h

/-- A lookup finds the logical key that the table lists. -/
theorem Binding.lookup_mem {t : Binding} (h : Binding.wf t) {hk : HostKey} {k : Key} (hm : (hk, k) ∈ t) :
    Binding.lookup t hk = some k := by
  induction t with
  | nil => simp at hm
  | cons c rest ih =>
    obtain ⟨hc, hr⟩ := List.pairwise_cons.1 h.1
    rcases List.mem_cons.1 hm with rfl | hm
    · simp [Binding.lookup]
    · have hlt : c.1.id < hk.id := hc _ hm
      have hne : c.1 ≠ hk := fun e => Nat.ne_of_lt hlt (e ▸ rfl)
      simp only [Binding.lookup, if_neg hne]
      exact ih ⟨hr, (List.pairwise_cons.1 h.2).2⟩ hm

/-- A lookup of a host key that the table does not list finds none. -/
theorem Binding.lookup_not_mem {t : Binding} {hk : HostKey} (h : ∀ k, (hk, k) ∉ t) : Binding.lookup t hk = none := by
  induction t with
  | nil => rfl
  | cons c rest ih =>
    have hne : c.1 ≠ hk := fun e => h c.2 (by rw [← e]; simp)
    simp only [Binding.lookup, if_neg hne]
    exact ih fun k hm => h k (by simp [hm])

/-- Two names differ where two host keys do, so a host's map is an injective map of names. -/
theorem HostKeys.isInjectiveMap {H : Type} (host : HostKeys H) {map : List (H × Key)}
    (h1 : map.Pairwise (fun c d => c.1 ≠ d.1)) (h2 : map.Pairwise (fun c d => c.2 ≠ d.2)) :
    Binding.isInjectiveMap (map.map (fun c => (host.name c.1, c.2))) :=
  ⟨List.pairwise_map.2 (h1.imp fun h e => h (host.injective _ _ e)), List.pairwise_map.2 h2⟩

/-- A host's map lists a binding exactly where its table of names does. -/
theorem HostKeys.mem_names {H : Type} (host : HostKeys H) (map : List (H × Key)) (h : H) (k : Key) :
    (host.name h, k) ∈ map.map (fun c => (host.name c.1, c.2)) ↔ (h, k) ∈ map := by
  simp only [List.mem_map, Prod.mk.injEq]
  constructor
  · rintro ⟨⟨g, j⟩, hm, hn, rfl⟩
    exact host.injective _ _ hn ▸ hm
  · intro hm
    exact ⟨(h, k), hm, rfl, rfl⟩

end Sys2Proof.Machine
end

