-- ==== Sys2Proof/Laws/Decode.lean ====
section
/-! SUPPORT. Fields and formats as numbers: what each field is of a word's value, and what value each format builds.
With these, a fact about decoding or encoding is linear arithmetic. -/

namespace Sys2Proof

/-! ### Fields (30_encoding.md R73) -/

theorem fieldOp_eq (w : Word) : fieldOp w = w.toNat / 0x1000 := by
  have := w.isLt
  simp only [fieldOp, BitVec.extractLsb'_toNat, Nat.shiftRight_eq_div_pow]
  omega

theorem fieldX_val (w : Word) : (fieldX w).val = w.toNat / 0x100 % 0x10 := by
  simp [fieldX, Nat.shiftRight_eq_div_pow]

theorem fieldY_val (w : Word) : (fieldY w).val = w.toNat / 0x10 % 0x10 := by
  simp [fieldY, Nat.shiftRight_eq_div_pow]

theorem fieldN_val (w : Word) : (fieldN w).val = w.toNat % 0x10 := by
  simp [fieldN]

theorem fieldNN_toNat (w : Word) : (fieldNN w).toNat = w.toNat % 0x100 := by
  simp [fieldNN, BitVec.extractLsb'_toNat]

theorem fieldNNN_toNat (w : Word) : (fieldNNN w).toNat = w.toNat % 0x1000 := by
  simp [fieldNNN, BitVec.extractLsb'_toNat]

/-! ### Formats (30_encoding.md R72) -/

theorem toNat_append {m n : Nat} (a : BitVec m) (b : BitVec n) : (a ++ b).toNat = a.toNat * 2 ^ n + b.toNat := by
  rw [BitVec.toNat_append, Nat.shiftLeft_eq, Nat.mul_comm, Nat.two_pow_add_eq_or_of_lt b.isLt]

@[simp] theorem nibble_toNat (x : Fin 16) : (nibble x).toNat = x.val := rfl

theorem formatNNN_toNat (op : BitVec 4) (nnn : Addr12) :
    (formatNNN op nnn).toNat = 0x1000 * op.toNat + nnn.toNat := by
  have h := toNat_append op nnn
  simp only [formatNNN]
  omega

theorem formatXNN_toNat (op : BitVec 4) (x : Reg) (nn : Byte) :
    (formatXNN op x nn).toNat = 0x1000 * op.toNat + 0x100 * x.val + nn.toNat := by
  have h := toNat_append (op ++ nibble x) nn
  have h2 := toNat_append op (nibble x)
  simp only [formatXNN, nibble_toNat] at *
  omega

theorem formatXYN_toNat (op : BitVec 4) (x y : Reg) (n : Fin 16) :
    (formatXYN op x y n).toNat = 0x1000 * op.toNat + 0x100 * x.val + 0x10 * y.val + n.val := by
  have h := toNat_append (op ++ nibble x ++ nibble y) (nibble n)
  have h2 := toNat_append (op ++ nibble x) (nibble y)
  have h3 := toNat_append op (nibble x)
  simp only [formatXYN, nibble_toNat] at *
  omega

/-! ### Bytes of a word (20_memory.md R57, R60) -/

theorem wordOf_toNat (hi lo : Byte) : (wordOf hi lo).toNat = 0x100 * hi.toNat + lo.toNat := by
  have h := toNat_append hi lo
  simp only [wordOf]
  omega

theorem highByte_toNat (w : Word) : (highByte w).toNat = w.toNat / 0x100 := by
  have := w.isLt
  simp only [highByte, BitVec.extractLsb'_toNat, Nat.shiftRight_eq_div_pow]
  omega

theorem lowByte_toNat (w : Word) : (lowByte w).toNat = w.toNat % 0x100 := by
  simp [lowByte, BitVec.extractLsb'_toNat]

/-- A word is its two bytes. -/
@[simp] theorem wordOf_bytes (w : Word) : wordOf (highByte w) (lowByte w) = w := by
  apply BitVec.eq_of_toNat_eq
  rw [wordOf_toNat, highByte_toNat, lowByte_toNat]
  omega

/-- Decoding the two bytes of a word, with more after them. -/
theorem decode_cons (hi lo : Byte) (rest : List Byte) :
    decode (hi :: lo :: rest) = (decodeWord (wordOf hi lo)).map (fun i => (i, rest)) := by
  simp only [decode]
  cases decodeWord (wordOf hi lo) <;> rfl

end Sys2Proof
end

