-- ==== Sys2Proof/Laws/Memory.lean ====
section
/-! SUPPORT. Memory: a read after a write, and that every operation keeps the canonical form. -/

namespace Sys2Proof.Machine

open Sys2Proof.Config

/-! ### Reads -/

theorem Memory.read_erase_same (m : Memory) (a : Nat) : Memory.read (Memory.erase m a) a = Memory.background a := by
  induction m with
  | nil => rfl
  | cons c rest ih => simp only [Memory.erase]; split <;> simp_all [Memory.read]

theorem Memory.read_erase_other (m : Memory) {a a' : Nat} (h : a ≠ a') :
    Memory.read (Memory.erase m a) a' = Memory.read m a' := by
  induction m with
  | nil => rfl
  | cons c rest ih => simp only [Memory.erase]; split <;> simp_all [Memory.read]

theorem Memory.not_mem_erase (m : Memory) (a : Nat) : ∀ c ∈ Memory.erase m a, c.1 ≠ a := by
  induction m with
  | nil => simp [Memory.erase]
  | cons c rest ih =>
    simp only [Memory.erase]
    split
    · exact ih
    · rename_i hc
      exact List.forall_mem_cons.2 ⟨hc, ih⟩

theorem Memory.read_insert_same (m : Memory) (a : Nat) (b : Byte) (h : ∀ c ∈ m, c.1 ≠ a) :
    Memory.read (Memory.insert m a b) a = b := by
  induction m with
  | nil => simp [Memory.insert, Memory.read]
  | cons c rest ih => simp only [Memory.insert]; split <;> simp_all [Memory.read]

theorem Memory.read_insert_other (m : Memory) {a a' : Nat} (b : Byte) (h : a ≠ a') :
    Memory.read (Memory.insert m a b) a' = Memory.read m a' := by
  induction m with
  | nil => simp [Memory.insert, Memory.read, h]
  | cons c rest ih => simp only [Memory.insert]; split <;> simp_all [Memory.read]

/-- A read after a write: the byte written at its address, the old byte at every other. -/
@[simp] theorem Memory.read_write (m : Memory) (a a' : Nat) (b : Byte) :
    Memory.read (Memory.write m a b) a' = if a = a' then b else Memory.read m a' := by
  unfold Memory.write
  by_cases h : a = a'
  · subst h
    split
    · simp_all [Memory.read_erase_same]
    · simp [Memory.read_insert_same _ _ _ (Memory.not_mem_erase m a)]
  · split
    · simp [h, Memory.read_erase_other]
    · simp [h, Memory.read_insert_other, Memory.read_erase_other]

/-- A read after bytes are stored at rising addresses. -/
theorem Memory.read_writeList (m : Memory) (a a' : Nat) (bytes : List Byte) :
    Memory.read (Memory.writeList m a bytes) a' =
      if a ≤ a' then (bytes[a' - a]?).getD (Memory.read m a') else Memory.read m a' := by
  induction bytes generalizing m a with
  | nil => simp [Memory.writeList]
  | cons b rest ih =>
    rw [Memory.writeList, ih]
    rcases Nat.lt_trichotomy a a' with h | h | h
    · obtain ⟨d, rfl⟩ : ∃ d, a' = a + 1 + d := ⟨a' - (a + 1), by omega⟩
      have h1 : a + 1 + d - (a + 1) = d := by omega
      have h2 : a + 1 + d - a = d + 1 := by omega
      simp [h1, h2, show a ≤ a + 1 + d by omega, show a ≠ a + 1 + d by omega]
    · subst h
      simp
    · simp [show ¬ a + 1 ≤ a' by omega, show ¬ a ≤ a' by omega, show a ≠ a' by omega]

/-! ### The canonical form -/

theorem Memory.erase_sublist (m : Memory) (a : Nat) : (Memory.erase m a).Sublist m := by
  induction m with
  | nil => exact .slnil
  | cons c rest ih =>
    simp only [Memory.erase]
    split
    · exact .cons _ ih
    · exact .cons_cons _ ih

theorem Memory.wf_erase {m : Memory} (h : Memory.wf m) (a : Nat) : Memory.wf (Memory.erase m a) :=
  ⟨h.1.sublist (Memory.erase_sublist m a), fun c hc => h.2 c ((Memory.erase_sublist m a).mem hc)⟩

theorem Memory.mem_insert (m : Memory) (a : Nat) (b : Byte) (c : Host.Cell) :
    c ∈ Memory.insert m a b ↔ c = (a, b) ∨ c ∈ m := by
  induction m with
  | nil => simp [Memory.insert]
  | cons d rest ih =>
    simp only [Memory.insert]
    split
    · simp
    · simp [ih]
      tauto

theorem Memory.pairwise_insert {m : Memory} (h : m.Pairwise (fun c d => c.1 < d.1)) {a : Nat} (b : Byte)
    (ha : ∀ c ∈ m, c.1 ≠ a) : (Memory.insert m a b).Pairwise (fun c d => c.1 < d.1) := by
  induction m with
  | nil => simp [Memory.insert]
  | cons c rest ih =>
    obtain ⟨hc, hrest⟩ := List.pairwise_cons.1 h
    have hca : c.1 ≠ a := ha c (by simp)
    simp only [Memory.insert]
    split
    · rename_i hlt
      refine List.pairwise_cons.2 ⟨fun d hd => ?_, h⟩
      rcases List.mem_cons.1 hd with rfl | hd
      · exact hlt
      · exact Nat.lt_trans hlt (hc d hd)
    · rename_i hnlt
      refine List.pairwise_cons.2 ⟨fun d hd => ?_, ih hrest (fun d hd => ha d (by simp [hd]))⟩
      rcases (Memory.mem_insert _ _ _ _).1 hd with rfl | hd
      · exact Nat.lt_of_le_of_ne (Nat.le_of_not_lt hnlt) hca
      · exact hc d hd

/-- A write inside memory keeps the canonical form. -/
theorem Memory.wf_write {m : Memory} (h : Memory.wf m) {a : Nat} (ha : a < memSize) (b : Byte) :
    Memory.wf (Memory.write m a b) := by
  unfold Memory.write
  split
  · exact Memory.wf_erase h a
  · rename_i hb
    have he := Memory.wf_erase h a
    refine ⟨Memory.pairwise_insert he.1 b (Memory.not_mem_erase m a), fun c hc => ?_⟩
    rcases (Memory.mem_insert _ _ _ _).1 hc with rfl | hc
    · exact ⟨ha, hb⟩
    · exact he.2 c hc

/-- Storing bytes inside memory keeps the canonical form. -/
theorem Memory.wf_writeList {m : Memory} (h : Memory.wf m) {a : Nat} {bytes : List Byte}
    (ha : bytes = [] ∨ a + bytes.length ≤ memSize) : Memory.wf (Memory.writeList m a bytes) := by
  induction bytes generalizing m a with
  | nil => exact h
  | cons b rest ih =>
    have hl : a + (rest.length + 1) ≤ memSize := by simpa using ha
    exact ih (Memory.wf_write h (by omega) b) (.inr (by omega))

/-- The font has FONT_GLYPHS glyphs of GLYPH_BYTES bytes (20_memory.md R53). -/
theorem font_length : font.length = fontGlyphs * glyphBytes := rfl

/-- Reset memory has the canonical form. -/
theorem Memory.wf_reset : Memory.wf State.reset.mem := by decide

end Sys2Proof.Machine
end

