-- ==== Sys2Proof/Laws/Ops.lean ====
section
/-! SUPPORT. One lemma for each shared operation that says everything it can do; a proof about an instruction cites
these and unfolds only the instruction. -/

namespace Sys2Proof.Machine

open Sys2Proof.Config

@[simp] theorem endStep_ok (s : State) : endStep (.ok s) = .next s := rfl
@[simp] theorem endStep_error (h : State) : endStep (.error h) = .next h := rfl

/-- An instruction that ends its step always has a next state. -/
theorem endStep_next (r : Except State State) : ∃ t, endStep r = .next t ∧ (r = .ok t ∨ r = .error t) := by
  cases r with
  | ok s => exact ⟨s, rfl, .inl rfl⟩
  | error h => exact ⟨h, rfl, .inr rfl⟩

/-- pc moves on by two bytes an instruction (30_encoding.md R70, R71). -/
@[simp] theorem instrLength_eq : instrLength = 2 := rfl

/-! ### Memory access -/

theorem State.memRead_inside (s : State) {a : Nat} (h : a < memSize) : s.memRead a = .ok (s.byte a) := by
  simp [State.memRead, Nat.not_le.2 h]

theorem State.memRead_outside (s : State) {a : Nat} (h : memSize ≤ a) :
    s.memRead a = .error (s.halt .outOfBounds) := by
  simp [State.memRead, h]

theorem State.memWrite_inside (s : State) {a : Nat} (b : Byte) (h : a < memSize) :
    s.memWrite a b = .ok (s.setMem (Memory.write s.mem a b)) := by
  simp [State.memWrite, Nat.not_le.2 h]

theorem State.memWrite_outside (s : State) {a : Nat} (b : Byte) (h : memSize ≤ a) :
    s.memWrite a b = .error (s.halt .outOfBounds) := by
  simp [State.memWrite, h]

theorem State.fetchWord_inside (s : State) {a : Nat} (h : a + 1 < memSize) :
    s.fetchWord a = .ok (wordOf (s.byte a) (s.byte (a + 1))) := by
  simp [State.fetchWord, Nat.not_le.2 h]

theorem State.fetchWord_outside (s : State) {a : Nat} (h : memSize ≤ a + 1) :
    s.fetchWord a = .error (s.halt .outOfBounds) := by
  simp [State.fetchWord, h]

/-- Reading bytes that all lie inside memory. -/
theorem State.readBytes_inside (s : State) {a n : Nat} (h : n = 0 ∨ a + n ≤ memSize) :
    s.readBytes a n = .ok ((List.range n).map (fun r => s.byte (a + r))) := by
  induction n generalizing a with
  | zero => rfl
  | succ n ih =>
    have hl : a + (n + 1) ≤ memSize := by simpa using h
    have e := ih (a := a + 1) (.inr (by omega))
    simp [State.readBytes, State.memRead_inside s (show a < memSize by omega), e, List.range_succ_eq_map,
      Function.comp_def, Nat.add_assoc, Nat.add_comm 1]

/-- Reading bytes that run past the end of memory. -/
theorem State.readBytes_outside (s : State) {a n : Nat} (hn : 0 < n) (h : memSize < a + n) :
    s.readBytes a n = .error (s.halt .outOfBounds) := by
  induction n generalizing a with
  | zero => exact absurd hn (Nat.lt_irrefl 0)
  | succ n ih =>
    by_cases ha : a < memSize
    · have e := ih (a := a + 1) (by omega) (by omega)
      simp [State.readBytes, State.memRead_inside s ha, e]
    · simp [State.readBytes, State.memRead_outside s (Nat.le_of_not_lt ha)]

/-- Writing bytes that all lie inside memory. -/
theorem State.writeBytes_inside (s : State) {a : Nat} {bytes : List Byte} (h : bytes = [] ∨ a + bytes.length ≤ memSize) :
    s.writeBytes a bytes = .ok (s.setMem (Memory.writeList s.mem a bytes)) := by
  induction bytes generalizing s a with
  | nil => rfl
  | cons b rest ih =>
    have hl : a + (rest.length + 1) ≤ memSize := by simpa using h
    simp only [State.writeBytes, State.memWrite_inside s b (show a < memSize by omega)]
    rw [ih _ (.inr (by omega))]
    rfl

/-- Writing bytes that run past the end of memory: those inside stay written, then the halt
(43_index_memory.md R186). -/
theorem State.writeBytes_outside (s : State) {a : Nat} {bytes : List Byte} (hb : bytes ≠ [])
    (h : memSize < a + bytes.length) :
    s.writeBytes a bytes =
      .error ((s.setMem (Memory.writeList s.mem a (bytes.take (memSize - a)))).halt .outOfBounds) := by
  induction bytes generalizing s a with
  | nil => exact absurd rfl hb
  | cons b rest ih =>
    by_cases ha : a < memSize
    · have hr : rest ≠ [] := by
        rintro rfl
        simp at h
        omega
      obtain ⟨d, hd⟩ : ∃ d, memSize - a = d + 1 := ⟨memSize - a - 1, by omega⟩
      have hd' : memSize - (a + 1) = d := by omega
      simp only [List.length_cons] at h
      simp only [State.writeBytes, State.memWrite_inside s b ha]
      rw [ih _ hr (by omega), hd, hd']
      rfl
    · simp [State.writeBytes, State.memWrite_outside s b (Nat.le_of_not_lt ha), show memSize - a = 0 by omega,
        Memory.writeList, State.setMem]

/-- Registers filled from rising addresses: what FX65 leaves in V. -/
def fillRegs (s : State) (a : Nat) (xs : List Reg) : State :=
  match xs with
  | [] => s
  | x :: rest => fillRegs (s.setReg x (s.byte a)) (a + 1) rest

/-- Loading registers from bytes that all lie inside memory. -/
theorem State.loadRegs_inside (s : State) {a : Nat} {xs : List Reg} (h : xs = [] ∨ a + xs.length ≤ memSize) :
    s.loadRegs a xs = .ok (fillRegs s a xs) := by
  induction xs generalizing s a with
  | nil => rfl
  | cons x rest ih =>
    have hl : a + (rest.length + 1) ≤ memSize := by simpa using h
    simp only [State.loadRegs, State.memRead_inside s (show a < memSize by omega)]
    rw [ih _ (.inr (by omega))]
    rfl

/-- Loading registers past the end of memory: those before stay loaded, then the halt (43_index_memory.md R186). -/
theorem State.loadRegs_outside (s : State) {a : Nat} {xs : List Reg} (hx : xs ≠ []) (h : memSize < a + xs.length) :
    s.loadRegs a xs = .error ((fillRegs s a (xs.take (memSize - a))).halt .outOfBounds) := by
  induction xs generalizing s a with
  | nil => exact absurd rfl hx
  | cons x rest ih =>
    by_cases ha : a < memSize
    · have hr : rest ≠ [] := by
        rintro rfl
        simp at h
        omega
      obtain ⟨d, hd⟩ : ∃ d, memSize - a = d + 1 := ⟨memSize - a - 1, by omega⟩
      have hd' : memSize - (a + 1) = d := by omega
      simp only [List.length_cons] at h
      simp only [State.loadRegs, State.memRead_inside s ha]
      rw [ih _ hr (by omega), hd, hd']
      rfl
    · simp [State.loadRegs, State.memRead_outside s (Nat.le_of_not_lt ha), show memSize - a = 0 by omega, fillRegs]

/-- Filling registers changes nothing but V. -/
theorem fillRegs_eq (s : State) (a : Nat) (xs : List Reg) :
    fillRegs s a xs = { s with v := (fillRegs s a xs).v } := by
  induction xs generalizing s a with
  | nil => rfl
  | cons x rest ih =>
    rw [fillRegs, ih]
    rfl

/-- A register that is not filled keeps its value. -/
theorem fillRegs_reg_other (s : State) (a : Nat) (xs : List Reg) {y : Reg} (h : y ∉ xs) :
    (fillRegs s a xs).reg y = s.reg y := by
  induction xs generalizing s a with
  | nil => rfl
  | cons x rest ih =>
    simp only [List.mem_cons, not_or] at h
    rw [fillRegs, ih _ _ h.2]
    simp [Ne.symm h.1]

/-- The register at position `j` of a list without repeats gets the byte `j` past the start. -/
theorem fillRegs_reg (s : State) (a : Nat) (xs : List Reg) (hx : xs.Nodup) {j : Nat} (hj : j < xs.length) :
    (fillRegs s a xs).reg xs[j] = s.byte (a + j) := by
  induction xs generalizing s a j with
  | nil => exact absurd hj (Nat.not_lt_zero j)
  | cons x rest ih =>
    obtain ⟨hnot, hrest⟩ := List.nodup_cons.1 hx
    cases j with
    | zero => simp [fillRegs, fillRegs_reg_other _ _ _ hnot]
    | succ j =>
      have := ih (s.setReg x (s.byte a)) (a + 1) hrest (j := j) (by simpa using hj)
      simp only [fillRegs, List.getElem_cons_succ, this, State.byte_setReg]
      congr 1
      omega

/-! ### The registers of a transfer -/

theorem allRegs_length : allRegs.length = numV := List.length_finRange

@[simp] theorem regsUpTo_length (x : Reg) : (regsUpTo x).length = x.val + 1 := by
  have := x.isLt
  rw [regsUpTo, List.length_take, allRegs_length]
  omega

theorem regsUpTo_get (x : Reg) {j : Nat} (h : j < (regsUpTo x).length) : (regsUpTo x)[j].val = j := by
  simp [regsUpTo, allRegs]

theorem regsUpTo_nodup (x : Reg) : (regsUpTo x).Nodup :=
  (List.nodup_finRange numV).sublist (List.take_sublist _ _)

theorem mem_regsUpTo (x y : Reg) : y ∈ regsUpTo x ↔ y ≤ x := by
  constructor
  · intro h
    obtain ⟨j, hj, rfl⟩ := List.mem_iff_getElem.1 h
    have h1 := regsUpTo_get x hj
    have h2 := regsUpTo_length x
    exact Fin.le_def.2 (by omega)
  · intro h
    have hj : y.val < (regsUpTo x).length := by
      rw [regsUpTo_length]
      exact Nat.lt_succ_of_le h
    have : (regsUpTo x)[y.val] = y := Fin.ext (regsUpTo_get x hj)
    exact this ▸ List.getElem_mem hj

/-! ### The stack, skips and keys -/

/-- A push below the stack's depth. -/
theorem State.push_room (s : State) (w : Word) {j : Fin stackDepth} (h : s.sp.val = j.val) :
    s.push w = .ok { s with stack := s.stack.set j w, sp := ⟨j.val + 1, Nat.succ_lt_succ j.isLt⟩ } := by
  have hlt : s.sp.val < stackDepth := by
    rw [h]
    exact j.isLt
  rw [State.push, dif_pos hlt]
  simp only [h]

/-- A push on a full stack. -/
theorem State.push_full (s : State) (w : Word) (h : s.sp.val = stackDepth) :
    s.push w = .error (s.halt .capacityExceeded) := by
  simp [State.push, h]

/-- A pop of the newest entry. -/
theorem State.pop_entry (s : State) {j : Fin stackDepth} (h : s.sp.val = j.val + 1) :
    s.pop = .ok (s.stack[j], { s with sp := ⟨j.val, Nat.lt_succ_of_lt j.isLt⟩ }) := by
  unfold State.pop
  split
  · rename_i heq
    rw [heq] at h
    exact absurd h (Nat.succ_ne_zero _).symm
  · rename_i n hn heq
    rw [heq] at h
    have : n = j.val := Nat.succ.inj h
    subst this
    rfl

/-- A pop of an empty stack. -/
theorem State.pop_empty (s : State) (h : s.sp.val = 0) : s.pop = .error (s.halt .capacityExceeded) := by
  unfold State.pop
  split
  · rfl
  · rename_i heq
    rw [heq] at h
    exact absurd h (Nat.succ_ne_zero _)

/-- A skip moves pc or leaves the state. -/
theorem State.skip_eq (s : State) (c : Bool) : s.skip c = s.setPc (if c then s.pc + 2 else s.pc) := by
  cases c <;> rfl

theorem State.keyIndex_key (s : State) (k : Key) : s.keyIndex k.val = .ok k := by
  simp [State.keyIndex, k.isLt]

theorem State.keyIndex_invalid (s : State) {n : Nat} (h : numKeys ≤ n) : s.keyIndex n = .error (s.halt .invalidKey) := by
  simp [State.keyIndex, Nat.not_lt.2 h]

/-! ### The blit (44_display.md R203) -/

/-- Which pixels a sprite covers: those on a 1 bit of a row, wrapped on both axes. -/
theorem mem_spritePixels (x y : Nat) (rows : List Byte) (px : Fin screenW) (py : Fin screenH) :
    (px, py) ∈ spritePixels x y rows ↔
      ∃ r col, ∃ h : r < rows.length, col < 8 ∧ rows[r].getLsbD (7 - col) = true ∧
        px.val = (x + col) % 64 ∧ py.val = (y + r) % 32 := by
  induction rows generalizing y with
  | nil => simp [spritePixels]
  | cons b rest ih =>
    simp only [spritePixels, List.mem_append, ih, rowPixels, List.mem_map, List.mem_filter, List.mem_range, spriteWidth,
      Prod.mk.injEq, Fin.ext_iff, Fin.val_ofNat]
    constructor
    · rintro (⟨col, ⟨hc, hb⟩, hx, hy⟩ | ⟨r, col, hr, hc, hb, hx, hy⟩)
      · exact ⟨0, col, by simp, hc, hb, hx.symm, by simpa using hy.symm⟩
      · exact ⟨r + 1, col, by simpa using hr, hc, by simpa using hb, hx, by rw [hy]; congr 1; omega⟩
    · rintro ⟨r, col, hr, hc, hb, hx, hy⟩
      cases r with
      | zero => exact .inl ⟨col, ⟨hc, by simpa using hb⟩, hx.symm, by simpa using hy.symm⟩
      | succ r => exact .inr ⟨r, col, by simpa using hr, hc, by simpa using hb, hx, by rw [hy]; congr 1; omega⟩

/-- Two columns of one sprite never wrap onto one pixel. -/
theorem nodup_rowPixels (x y : Nat) (b : Byte) : (rowPixels x y b).Nodup := by
  refine List.Nodup.map_on ?_ ((List.nodup_range).filter _)
  intro c hc d hd h
  simp only [List.mem_filter, List.mem_range, spriteWidth] at hc hd
  have hv : (x + c) % 64 = (x + d) % 64 := by simpa [Fin.ext_iff] using congrArg Prod.fst h
  omega

/-- A sprite of at most 32 rows reaches no pixel twice (44_display.md R203, its last sentence). -/
theorem nodup_spritePixels (x y : Nat) (rows : List Byte) (h : rows.length ≤ 32) : (spritePixels x y rows).Nodup := by
  induction rows generalizing y with
  | nil => simp [spritePixels]
  | cons b rest ih =>
    have hl : rest.length + 1 ≤ 32 := by simpa using h
    refine List.Nodup.append (nodup_rowPixels x y b) (ih (y + 1) (by omega)) ?_
    rintro ⟨px, py⟩ h1 h2
    obtain ⟨r, _, hr, _, _, _, hy⟩ := (mem_spritePixels _ _ _ _ _).1 h2
    simp only [rowPixels, List.mem_map, Prod.mk.injEq] at h1
    obtain ⟨_, _, _, rfl⟩ := h1
    simp only [Fin.val_ofNat, screenH] at hy
    omega

/-- Flipping pixels without repeats: each is inverted, every other stays, and the collision says that one was set. -/
theorem foldl_flipPixel (places : List (Fin screenW × Fin screenH)) (hn : places.Nodup) (p : Screen) (c : Bool) :
    (∀ x y, Screen.pixel (places.foldl flipPixel (p, c)).1 x y =
      if (x, y) ∈ places then !Screen.pixel p x y else Screen.pixel p x y) ∧
    (places.foldl flipPixel (p, c)).2 = (c || places.any (fun q => Screen.pixel p q.1 q.2)) := by
  induction places generalizing p c with
  | nil => simp
  | cons q rest ih =>
    obtain ⟨hq, hrest⟩ := List.nodup_cons.1 hn
    obtain ⟨h1, h2⟩ := ih hrest (Screen.setPixel p q.1 q.2 (!Screen.pixel p q.1 q.2)) (c || Screen.pixel p q.1 q.2)
    constructor
    · intro x y
      rw [List.foldl_cons, flipPixel, h1]
      by_cases hxy : (x, y) = q
      · subst hxy
        simp [hq]
      · have : ¬ (q.1 = x ∧ q.2 = y) := fun h => hxy (Prod.ext h.1.symm h.2.symm)
        simp [hxy, this]
    · rw [List.foldl_cons, flipPixel, h2, Bool.or_assoc, List.any_cons]
      congr 2
      rw [Bool.eq_iff_iff, List.any_eq_true, List.any_eq_true]
      have hne : ∀ r ∈ rest, ¬ (q.1 = r.1 ∧ q.2 = r.2) := fun r hr h => hq (Prod.ext h.1 h.2 ▸ hr)
      constructor <;> rintro ⟨r, hr, hp⟩ <;> exact ⟨r, hr, by simpa [hne r hr] using hp⟩

/-- draw_sprite: exactly the covered pixels are inverted, and the collision says that one of them was set. -/
theorem drawSprite_spec (x y : Nat) (rows : List Byte) (h : rows.length ≤ 32) (p : Screen) :
    (∀ px py, Screen.pixel (drawSprite x y rows p).1 px py =
      if (px, py) ∈ spritePixels x y rows then !Screen.pixel p px py else Screen.pixel p px py) ∧
    (drawSprite x y rows p).2 = (spritePixels x y rows).any (fun q => Screen.pixel p q.1 q.2) := by
  simpa [drawSprite] using foldl_flipPixel _ (nodup_spritePixels x y rows h) p false

end Sys2Proof.Machine
end

