-- ==== Sys2Proof/Laws/Frame.lean ====
section
/-! SUPPORT. The frame of each named update and of the halt, and how frames compose. -/

namespace Sys2Proof.Machine

/-- Nothing is touched by doing nothing. -/
theorem Frame.refl (touched : Part → Prop) (s : State) : Frame touched s s := by
  intro p _
  cases p <;> rfl

/-- A frame may allow more. -/
theorem Frame.weaken {f g : Part → Prop} {s t : State} (h : Frame f s t) (hfg : ∀ p, f p → g p) : Frame g s t :=
  fun p hp => h p (fun hf => hp (hfg p hf))

theorem Part.same_trans {p : Part} {s t u : State} (h1 : p.same s t) (h2 : p.same t u) : p.same s u := by
  cases p <;> exact Eq.trans h2 h1

/-- Frames compose. -/
theorem Frame.trans {f : Part → Prop} {s t u : State} (h1 : Frame f s t) (h2 : Frame f t u) : Frame f s u :=
  fun p hp => Part.same_trans (h1 p hp) (h2 p hp)

variable (s : State)

theorem frame_setReg (x : Reg) (b : Byte) : Frame (· = .reg x) s (s.setReg x b) := by
  intro p hp
  cases p with
  | reg y => simp only [Part.same, State.reg_setReg, if_neg (fun h : x = y => hp (h ▸ rfl))]
  | _ => rfl

theorem frame_setI (w : Word) : Frame (· = .i) s (s.setI w) := by
  intro p hp
  cases p with
  | i => exact absurd rfl hp
  | _ => rfl

theorem frame_setPc (w : Word) : Frame (· = .pc) s (s.setPc w) := by
  intro p hp
  cases p with
  | pc => exact absurd rfl hp
  | _ => rfl

theorem frame_setDt (b : Byte) : Frame (· = .dt) s (s.setDt b) := by
  intro p hp
  cases p with
  | dt => exact absurd rfl hp
  | _ => rfl

theorem frame_setSt (b : Byte) : Frame (· = .st) s (s.setSt b) := by
  intro p hp
  cases p with
  | st => exact absurd rfl hp
  | _ => rfl

theorem frame_setMode (m : Mode) : Frame (· = .mode) s (s.setMode m) := by
  intro p hp
  cases p with
  | mode => exact absurd rfl hp
  | _ => rfl

theorem frame_setKey (k : Key) (b : Bool) : Frame (· = .key k) s (s.setKey k b) := by
  intro p hp
  cases p with
  | key j => simp only [Part.same, State.keyDown_setKey, if_neg (fun h : k = j => hp (h ▸ rfl))]
  | _ => rfl

/-- A new screen touches the pixels in which it differs. -/
theorem frame_setPix (q : Screen) (f : Part → Prop)
    (h : ∀ x y, ¬ f (.pixel x y) → Screen.pixel q x y = Screen.pixel s.pix x y) : Frame f s (s.setPix q) := by
  intro p hp
  cases p with
  | pixel x y => exact h x y hp
  | _ => rfl

/-- A new memory touches the bytes in which it differs. -/
theorem frame_setMem (m : Memory) (f : Part → Prop)
    (h : ∀ a, ¬ f (.byte a) → Memory.read m a = Memory.read s.mem a) : Frame f s (s.setMem m) := by
  intro p hp
  cases p with
  | byte a => exact h a hp
  | _ => rfl

theorem frame_halt (kind : ErrorKind) : Frame (· = .mode) s (s.halt kind) := by
  rw [State.halt_eq]
  exact frame_setMode s _

theorem haltedWith_halt (kind : ErrorKind) : HaltedWith kind s (s.halt kind) :=
  ⟨fun _ h => by rw [State.halt_of_halted _ _ h]; exact h, fun h => State.halt_mode_of_unhalted _ _ h⟩

/-- Filled registers are the only part that filling touches. -/
theorem frame_fillRegs (a : Nat) (xs : List Reg) : Frame (fun p => ∃ x ∈ xs, p = .reg x) s (fillRegs s a xs) := by
  intro p hp
  rw [fillRegs_eq]
  cases p with
  | reg y =>
    have := fillRegs_reg_other s a xs (y := y) (fun h => hp ⟨y, h, rfl⟩)
    rw [fillRegs_eq] at this
    exact this
  | _ => rfl

end Sys2Proof.Machine
end

