-- ==== Sys2Proof/Laws/Exec.lean ====
section
/-! SUPPORT. The inversion of `exec`: every state an instruction can leave, said once. A fact about all instructions is
a case analysis over `After` and never unfolds a meaning. -/

namespace Sys2Proof.Machine

open Sys2Proof.Config

/-- `After s i t`: `t` is one of the states that `i` can leave when it runs in `s`. Values that a frame does not need
(a sum, a flag, a drawn screen) are left open. -/
inductive After (s : State) : Instr → State → Prop where
  | sys (nnn : Addr12) : After s (.sys nnn) (s.halt .illegalInstruction)
  | cls : After s .cls (s.setPix Screen.clear)
  | retEmpty : s.sp.val = 0 → After s .ret (s.halt .capacityExceeded)
  | ret (j : Fin stackDepth) : s.sp.val = j.val + 1 →
      After s .ret ({ s with sp := ⟨j.val, Nat.lt_succ_of_lt j.isLt⟩ }.setPc s.stack[j])
  | jp (nnn : Addr12) : After s (.jp nnn) (s.setPc (zext16 nnn))
  | callFull (nnn : Addr12) : s.sp.val = stackDepth → After s (.call nnn) (s.halt .capacityExceeded)
  | call (nnn : Addr12) (j : Fin stackDepth) : s.sp.val = j.val →
      After s (.call nnn)
        ({ s with stack := s.stack.set j s.pc, sp := ⟨j.val + 1, Nat.succ_lt_succ j.isLt⟩ }.setPc (zext16 nnn))
  | jpV0 (nnn : Addr12) : After s (.jpV0 nnn) (s.setPc (zext16 nnn + byteToWord (jumpOffset jumpOffsetUsesVX nnn s)))
  | seImm (x : Reg) (nn : Byte) (c : Bool) : After s (.seImm x nn) (s.skip c)
  | sneImm (x : Reg) (nn : Byte) (c : Bool) : After s (.sneImm x nn) (s.skip c)
  | seReg (x y : Reg) (c : Bool) : After s (.seReg x y) (s.skip c)
  | sneReg (x y : Reg) (c : Bool) : After s (.sneReg x y) (s.skip c)
  | ldImm (x : Reg) (nn : Byte) : After s (.ldImm x nn) (s.setReg x nn)
  | addImm (x : Reg) (nn b : Byte) : After s (.addImm x nn) (s.setReg x b)
  | ldReg (x y : Reg) (b : Byte) : After s (.ldReg x y) (s.setReg x b)
  | orReg (x y : Reg) (b : Byte) : After s (.orReg x y) (s.setReg x b)
  | andReg (x y : Reg) (b : Byte) : After s (.andReg x y) (s.setReg x b)
  | xorReg (x y : Reg) (b : Byte) : After s (.xorReg x y) (s.setReg x b)
  | addReg (x y : Reg) (b f : Byte) : After s (.addReg x y) (s.setRegFlag x b f)
  | subReg (x y : Reg) (b f : Byte) : After s (.subReg x y) (s.setRegFlag x b f)
  | shr (x y : Reg) (b f : Byte) : After s (.shr x y) (s.setRegFlag x b f)
  | subnReg (x y : Reg) (b f : Byte) : After s (.subnReg x y) (s.setRegFlag x b f)
  | shl (x y : Reg) (b f : Byte) : After s (.shl x y) (s.setRegFlag x b f)
  | rnd (x : Reg) (nn b : Byte) : After s (.rnd x nn) { s.setReg x b with draws := s.draws + 1 }
  | ldI (nnn : Addr12) : After s (.ldI nnn) (s.setI (zext16 nnn))
  | addIVx (x : Reg) (w : Word) : After s (.addIVx x) (s.setI w)
  | ldFVx (x : Reg) (w : Word) : After s (.ldFVx x) (s.setI w)
  | drwOutside (x y : Reg) (n : Fin 16) : After s (.drw x y n) (s.halt .outOfBounds)
  | drw (x y : Reg) (n : Fin 16) (p : Screen) (f : Byte) : After s (.drw x y n) ((s.setPix p).setReg vf f)
  | skpInvalid (x : Reg) : After s (.skp x) (s.halt .invalidKey)
  | skp (x : Reg) (c : Bool) : After s (.skp x) (s.skip c)
  | sknpInvalid (x : Reg) : After s (.sknp x) (s.halt .invalidKey)
  | sknp (x : Reg) (c : Bool) : After s (.sknp x) (s.skip c)
  | ldVxDt (x : Reg) : After s (.ldVxDt x) (s.setReg x s.dt)
  | ldVxK (x : Reg) : After s (.ldVxK x) ((s.setPc (s.pc - 2)).setMode (.waitingForKey x))
  | ldDtVx (x : Reg) : After s (.ldDtVx x) (s.setDt (s.reg x))
  | ldStVx (x : Reg) : After s (.ldStVx x) (s.setSt (s.reg x))
  | ldBVx (x : Reg) (bytes : List Byte) : s.i.toNat + bytes.length ≤ memSize →
      After s (.ldBVx x) (s.setMem (Memory.writeList s.mem s.i.toNat bytes))
  | ldBVxOutside (x : Reg) (bytes : List Byte) : (bytes = [] ∨ s.i.toNat + bytes.length ≤ memSize) →
      After s (.ldBVx x) ((s.setMem (Memory.writeList s.mem s.i.toNat bytes)).halt .outOfBounds)
  | ldMemVx (x : Reg) (bytes : List Byte) : s.i.toNat + bytes.length ≤ memSize →
      After s (.ldMemVx x)
        ((s.setMem (Memory.writeList s.mem s.i.toNat bytes)).setI (indexAfterTransfer loadStoreIncrementsI s.i x))
  | ldMemVxOutside (x : Reg) (bytes : List Byte) : (bytes = [] ∨ s.i.toNat + bytes.length ≤ memSize) →
      After s (.ldMemVx x) ((s.setMem (Memory.writeList s.mem s.i.toNat bytes)).halt .outOfBounds)
  | ldVxMem (x : Reg) (xs : List Reg) : (∀ y ∈ xs, y ≤ x) →
      After s (.ldVxMem x) ((fillRegs s s.i.toNat xs).setI (indexAfterTransfer loadStoreIncrementsI s.i x))
  | ldVxMemOutside (x : Reg) (xs : List Reg) : (∀ y ∈ xs, y ≤ x) →
      After s (.ldVxMem x) ((fillRegs s s.i.toNat xs).halt .outOfBounds)

theorem take_fits (a : Nat) (bytes : List Byte) :
    bytes.take (memSize - a) = [] ∨ a + (bytes.take (memSize - a)).length ≤ memSize := by
  by_cases h : memSize ≤ a
  · exact .inl (by rw [show memSize - a = 0 by omega]; rfl)
  · right
    rw [List.length_take]
    omega

/-- Every next state of `exec` is one that `After` lists. -/
theorem exec_after {i : Instr} {s t : State} (h : exec i s = .next t) : After s i t := by
  cases i with
  | sys nnn => cases h; exact .sys nnn
  | cls => cases h; exact .cls
  | ret =>
    rcases Nat.eq_zero_or_pos s.sp.val with h0 | h0
    · simp only [exec, execRet, State.pop_empty s h0] at h
      cases h
      exact .retEmpty h0
    · have hj : s.sp.val = (⟨s.sp.val - 1, by have := s.sp.isLt; omega⟩ : Fin stackDepth).val + 1 := by simp; omega
      simp only [exec, execRet, State.pop_entry s hj] at h
      cases h
      exact .ret _ hj
  | jp nnn => cases h; exact .jp nnn
  | call nnn =>
    by_cases hfull : s.sp.val = stackDepth
    · simp only [exec, execCall, State.push_full s s.pc hfull] at h
      cases h
      exact .callFull nnn hfull
    · have hj : s.sp.val = (⟨s.sp.val, by have := s.sp.isLt; omega⟩ : Fin stackDepth).val := rfl
      simp only [exec, execCall, State.push_room s s.pc hj] at h
      cases h
      exact .call nnn _ hj
  | jpV0 nnn => cases h; exact .jpV0 nnn
  | seImm x nn => cases h; exact .seImm x nn _
  | sneImm x nn => cases h; exact .sneImm x nn _
  | seReg x y => cases h; exact .seReg x y _
  | sneReg x y => cases h; exact .sneReg x y _
  | ldImm x nn => cases h; exact .ldImm x nn
  | addImm x nn => cases h; exact .addImm x nn _
  | ldReg x y => cases h; exact .ldReg x y _
  | orReg x y => cases h; exact .orReg x y _
  | andReg x y => cases h; exact .andReg x y _
  | xorReg x y => cases h; exact .xorReg x y _
  | addReg x y => cases h; exact .addReg x y _ _
  | subReg x y => cases h; exact .subReg x y _ _
  | shr x y => cases h; exact .shr x y _ _
  | subnReg x y => cases h; exact .subnReg x y _ _
  | shl x y => cases h; exact .shl x y _ _
  | rnd x nn => cases h; exact .rnd x nn _
  | ldI nnn => cases h; exact .ldI nnn
  | addIVx x => cases h; exact .addIVx x _
  | ldFVx x => cases h; exact .ldFVx x _
  | drw x y n =>
    by_cases hin : n.val = 0 ∨ s.i.toNat + n.val ≤ memSize
    · simp only [exec, execDrw, State.readBytes_inside s hin] at h
      cases h
      exact .drw x y n _ _
    · simp only [exec, execDrw, State.readBytes_outside s (a := s.i.toNat) (n := n.val) (by omega) (by omega)] at h
      cases h
      exact .drwOutside x y n
  | skp x =>
    simp only [exec, execSkp, State.keyIndex] at h
    split at h
    · rename_i heq
      split at heq <;> cases heq
      cases h
      exact .skpInvalid x
    · cases h
      exact .skp x _
  | sknp x =>
    simp only [exec, execSknp, State.keyIndex] at h
    split at h
    · rename_i heq
      split at heq <;> cases heq
      cases h
      exact .sknpInvalid x
    · cases h
      exact .sknp x _
  | ldVxDt x => cases h; exact .ldVxDt x
  | ldVxK x => cases h; exact .ldVxK x
  | ldDtVx x => cases h; exact .ldDtVx x
  | ldStVx x => cases h; exact .ldStVx x
  | ldBVx x =>
    by_cases hin : s.i.toNat + (bcdDigits (s.reg x)).length ≤ memSize
    · simp only [exec, execLdBVx, State.writeBytes_inside s (.inr hin)] at h
      cases h
      exact .ldBVx x _ hin
    · have hne : bcdDigits (s.reg x) ≠ [] := List.cons_ne_nil _ _
      simp only [exec, execLdBVx, State.writeBytes_outside s hne (Nat.lt_of_not_le hin)] at h
      cases h
      exact .ldBVxOutside x _ (take_fits _ _)
  | ldMemVx x =>
    have hlen : ((regsUpTo x).map s.reg).length = x.val + 1 := by rw [List.length_map, regsUpTo_length]
    by_cases hin : s.i.toNat + ((regsUpTo x).map s.reg).length ≤ memSize
    · simp only [exec, execLdMemVx, State.writeBytes_inside s (.inr hin)] at h
      cases h
      exact .ldMemVx x _ hin
    · have hne : (regsUpTo x).map s.reg ≠ [] := fun h0 => by simp [h0] at hlen
      simp only [exec, execLdMemVx, State.writeBytes_outside s hne (Nat.lt_of_not_le hin)] at h
      cases h
      exact .ldMemVxOutside x _ (take_fits _ _)
  | ldVxMem x =>
    have hlen := regsUpTo_length x
    by_cases hin : s.i.toNat + (regsUpTo x).length ≤ memSize
    · simp only [exec, execLdVxMem, State.loadRegs_inside s (.inr hin)] at h
      cases h
      have hi : (fillRegs s s.i.toNat (regsUpTo x)).i = s.i := by rw [fillRegs_eq]
      rw [hi]
      exact .ldVxMem x _ (fun y hy => (mem_regsUpTo x y).1 hy)
    · have hne : regsUpTo x ≠ [] := fun h0 => by simp [h0] at hlen
      simp only [exec, execLdVxMem, State.loadRegs_outside s hne (Nat.lt_of_not_le hin)] at h
      cases h
      exact .ldVxMemOutside x _ (fun y hy => (mem_regsUpTo x y).1 (List.mem_of_mem_take hy))

/-- A step is the next call of the host: an instruction cycle, or another call's answer. -/
theorem step_cases {s t : State} (h : step s = .next t) :
    (s.nextCall = .executeNext ∧ executeNext s.dropCall = .next t) ∨
    (s.nextCall ≠ .executeNext ∧ ∃ reply, perform s.nextCall s.dropCall = .next ⟨t, reply⟩) := by
  simp only [step, hostStep] at h
  by_cases hc : s.nextCall = .executeNext
  · left
    refine ⟨hc, ?_⟩
    simp only [hc, perform, callExecuteNext] at h
    cases he : executeNext s.dropCall with
    | next u => rw [he] at h; exact h
    | fault f => exact nomatch f
    | refused r => rw [he] at h; cases h
  · right
    refine ⟨hc, ?_⟩
    cases hp : perform s.nextCall s.dropCall with
    | next a => rw [hp] at h; cases h; exact ⟨a.reply, rfl⟩
    | fault f => exact nomatch f
    | refused r => rw [hp] at h; cases h

/-- What `execute_next()` does: nothing outside Ready; in Ready a halt of the fetch, a halt on a word that is no
instruction, or an instruction. -/
theorem executeNext_cases {s t : State} (h : executeNext s = .next t) :
    (s.mode ≠ .ready ∧ t = s) ∨
    (s.mode = .ready ∧ memSize ≤ s.pc.toNat + 1 ∧ t = s.halt .outOfBounds) ∨
    (s.mode = .ready ∧ s.pc.toNat + 1 < memSize ∧ ∃ w, s.fetchWord s.pc.toNat = .ok w ∧
      ((∃ e, decodeWord w = .error e ∧ t = (s.setPc (s.pc + 2)).halt .illegalInstruction) ∨
        ∃ i, decodeWord w = .ok i ∧ exec i (s.setPc (s.pc + 2)) = .next t)) := by
  unfold executeNext at h
  split at h
  · rename_i hm
    cases h
    exact .inl ⟨by rw [hm]; exact nofun, rfl⟩
  · rename_i hm
    cases h
    exact .inl ⟨by rw [hm]; exact nofun, rfl⟩
  · rename_i hm
    right
    by_cases hp : s.pc.toNat + 1 < memSize
    · right
      refine ⟨hm, hp, _, State.fetchWord_inside s hp, ?_⟩
      simp only [runNext, State.fetchWord_inside s hp, runWord] at h
      split at h
      · rename_i i hd
        exact .inr ⟨i, hd, h⟩
      · rename_i e hd
        cases h
        exact .inl ⟨e, hd, rfl⟩
    · left
      have hp' : memSize ≤ s.pc.toNat + 1 := Nat.le_of_not_lt hp
      simp only [runNext, State.fetchWord_outside s hp'] at h
      cases h
      exact ⟨hm, hp', rfl⟩

end Sys2Proof.Machine
end

