-- ==== Sys2Proof/Laws/PerInstr.lean ====
section
/-! SUPPORT. One lemma for each instruction: its word lies under its row of the opcode table, whatever its operands. -/

namespace Sys2Proof.Laws.Format

/-- The word of `i` has the fixed bits that its table row asks for (30_encoding.md R72, R76). -/
def Statement (i : Instr) : Prop := encode i &&& (opcodeRow i).2 = (opcodeRow i).1

/-! ### Masking a format -/

theorem maskNNN (op : BitVec 4) (nnn : Addr12) : formatNNN op nnn &&& 0xF000 = op ++ 0#12 := by
  rw [show (0xF000 : Word) = BitVec.allOnes 4 ++ 0#12 by decide, formatNNN, BitVec.and_append,
    BitVec.and_allOnes, BitVec.and_zero]

theorem maskX (op : BitVec 4) (x : Reg) (nn : Byte) :
    formatXNN op x nn &&& 0xF000 = op ++ 0#4 ++ 0#8 := by
  rw [show (0xF000 : Word) = BitVec.allOnes 4 ++ 0#4 ++ 0#8 by decide, formatXNN,
    BitVec.and_append, BitVec.and_append, BitVec.and_allOnes, BitVec.and_zero, BitVec.and_zero]

theorem maskXNN (op : BitVec 4) (x : Reg) (nn : Byte) :
    formatXNN op x nn &&& 0xF0FF = op ++ 0#4 ++ nn := by
  rw [show (0xF0FF : Word) = BitVec.allOnes 4 ++ 0#4 ++ BitVec.allOnes 8 by decide, formatXNN,
    BitVec.and_append, BitVec.and_append, BitVec.and_allOnes, BitVec.and_zero, BitVec.and_allOnes]

theorem maskXYN (op : BitVec 4) (x y : Reg) (n : Fin 16) :
    formatXYN op x y n &&& 0xF00F = op ++ 0#4 ++ 0#4 ++ nibble n := by
  rw [show (0xF00F : Word) = BitVec.allOnes 4 ++ 0#4 ++ 0#4 ++ BitVec.allOnes 4 by decide,
    formatXYN, BitVec.and_append, BitVec.and_append, BitVec.and_append, BitVec.and_allOnes, BitVec.and_zero,
    BitVec.and_zero, BitVec.and_allOnes]

theorem maskXY (op : BitVec 4) (x y : Reg) (n : Fin 16) :
    formatXYN op x y n &&& 0xF000 = op ++ 0#4 ++ 0#4 ++ 0#4 := by
  rw [show (0xF000 : Word) = BitVec.allOnes 4 ++ 0#4 ++ 0#4 ++ 0#4 by decide,
    formatXYN, BitVec.and_append, BitVec.and_append, BitVec.and_append, BitVec.and_allOnes, BitVec.and_zero,
    BitVec.and_zero, BitVec.and_zero]

/-! ### The lemmas -/

theorem sys (nnn : Addr12) : Statement (.sys nnn) := maskNNN _ _

theorem cls : Statement .cls := rfl

theorem ret : Statement .ret := rfl

theorem jp (nnn : Addr12) : Statement (.jp nnn) := maskNNN _ _

theorem call (nnn : Addr12) : Statement (.call nnn) := maskNNN _ _

theorem seImm (x : Reg) (nn : Byte) : Statement (.seImm x nn) := maskX _ _ _

theorem sneImm (x : Reg) (nn : Byte) : Statement (.sneImm x nn) := maskX _ _ _

theorem seReg (x y : Reg) : Statement (.seReg x y) := maskXYN _ _ _ _

theorem ldImm (x : Reg) (nn : Byte) : Statement (.ldImm x nn) := maskX _ _ _

theorem addImm (x : Reg) (nn : Byte) : Statement (.addImm x nn) := maskX _ _ _

theorem ldReg (x y : Reg) : Statement (.ldReg x y) := maskXYN _ _ _ _

theorem orReg (x y : Reg) : Statement (.orReg x y) := maskXYN _ _ _ _

theorem andReg (x y : Reg) : Statement (.andReg x y) := maskXYN _ _ _ _

theorem xorReg (x y : Reg) : Statement (.xorReg x y) := maskXYN _ _ _ _

theorem addReg (x y : Reg) : Statement (.addReg x y) := maskXYN _ _ _ _

theorem subReg (x y : Reg) : Statement (.subReg x y) := maskXYN _ _ _ _

theorem shr (x y : Reg) : Statement (.shr x y) := maskXYN _ _ _ _

theorem subnReg (x y : Reg) : Statement (.subnReg x y) := maskXYN _ _ _ _

theorem shl (x y : Reg) : Statement (.shl x y) := maskXYN _ _ _ _

theorem sneReg (x y : Reg) : Statement (.sneReg x y) := maskXYN _ _ _ _

theorem ldI (nnn : Addr12) : Statement (.ldI nnn) := maskNNN _ _

theorem jpV0 (nnn : Addr12) : Statement (.jpV0 nnn) := maskNNN _ _

theorem rnd (x : Reg) (nn : Byte) : Statement (.rnd x nn) := maskX _ _ _

theorem drw (x y : Reg) (n : Fin 16) : Statement (.drw x y n) := maskXY _ _ _ _

theorem skp (x : Reg) : Statement (.skp x) := maskXNN _ _ _

theorem sknp (x : Reg) : Statement (.sknp x) := maskXNN _ _ _

theorem ldVxDt (x : Reg) : Statement (.ldVxDt x) := maskXNN _ _ _

theorem ldVxK (x : Reg) : Statement (.ldVxK x) := maskXNN _ _ _

theorem ldDtVx (x : Reg) : Statement (.ldDtVx x) := maskXNN _ _ _

theorem ldStVx (x : Reg) : Statement (.ldStVx x) := maskXNN _ _ _

theorem addIVx (x : Reg) : Statement (.addIVx x) := maskXNN _ _ _

theorem ldFVx (x : Reg) : Statement (.ldFVx x) := maskXNN _ _ _

theorem ldBVx (x : Reg) : Statement (.ldBVx x) := maskXNN _ _ _

theorem ldMemVx (x : Reg) : Statement (.ldMemVx x) := maskXNN _ _ _

theorem ldVxMem (x : Reg) : Statement (.ldVxMem x) := maskXNN _ _ _

end Sys2Proof.Laws.Format
end

