-- ==== Sys2Proof/Tests/Slice0.lean ====
section
/-! SUPPORT. Tests: words written out bit by bit from the spec's encodings, ill-formed terms, one-step vectors of
95_test_vectors.md (their ids stand in the comments), and a witness for the hypotheses of each statement. Expected
values come from the spec. -/

namespace Sys2Proof.Tests

open Sys2Proof.Machine

/-! ### Helpers -/

/-- The state after one step that runs the word `w`, if there is one. -/
def run (s : State) (w : Nat) : Option State :=
  match step (s.withFetchWord 16 w) with
  | .next t => some t
  | .fault _ => none
  | .refused _ => none

/-- The state and reply of one host call, if there is an answer. -/
def call (s : State) (c : HostCall) : Option Answer :=
  match perform c s with
  | .next a => some a
  | .fault _ => none
  | .refused _ => none

/-- The state after one step with `c` as the host's next call. -/
def hosted (s : State) (c : HostCall) : Option State :=
  match step { s with hostCalls := [c] } with
  | .next t => some t
  | .fault _ => none
  | .refused _ => none

/-- There is a state, and it passes the check. -/
def shows (o : Option State) (check : State → Bool) : Bool := o.any check

/-- Reset with two registers set. -/
def with2 (x : Reg) (a : Byte) (y : Reg) (b : Byte) : State := (State.reset.setReg x a).setReg y b

/-- Reset with VF = 0xAA, and then two registers set. -/
def flagged (x : Reg) (a : Byte) (y : Reg) (b : Byte) : State := ((State.reset.setReg 15 0xAA).setReg x a).setReg y b

/-- Reset with I set. -/
def indexed (w : Word) : State := State.reset.setI w

/-- Reset with bytes stored at an address. -/
def stored (a : Nat) (bytes : List Byte) : State := State.reset.setMem (Memory.writeList [] a bytes)

/-- One pixel. -/
def lit (s : State) (x : Fin 64) (y : Fin 32) : Bool := Screen.pixel s.pix x y

/-- The set columns of a row are those of the list. -/
def rowIs (s : State) (y : Fin 32) (xs : List (Fin 64)) : Bool :=
  (List.finRange 64).all fun x => lit s x y == xs.contains x

/-! ### Decoding: a word of every row, from the encodings of 40_control_flow.md to 45_keyboard_timers.md -/

theorem test_decode_control_flow :
    [0b0000000100100011, 0b0000000011101110, 0b0001101010111100, 0b0010001100000000, 0b1011001100000000].map
      (decodeTableWord 16) =
    [some (.sys 0x123), some .ret, some (.jp 0xABC), some (.call 0x300), some (.jpV0 0x300)] := by decide

theorem test_decode_skips :
    [0b0011001101000010, 0b0100001101000010, 0b0101000100100000, 0b1001000100100000].map (decodeTableWord 16) =
    [some (.seImm 3 0x42), some (.sneImm 3 0x42), some (.seReg 1 2), some (.sneReg 1 2)] := by decide

theorem test_decode_alu_literal :
    [0b0110101000000010, 0b0111101000000101, 0b1100000100001111].map (decodeTableWord 16) =
    [some (.ldImm 10 2), some (.addImm 10 5), some (.rnd 1 0x0F)] := by decide

theorem test_decode_alu_register :
    [0b1000000100100000, 0b1000000100100001, 0b1000000100100010, 0b1000000100100011, 0b1000000100100100,
     0b1000000100100101, 0b1000000100100110, 0b1000000100100111, 0b1000000100101110].map (decodeTableWord 16) =
    [some (.ldReg 1 2), some (.orReg 1 2), some (.andReg 1 2), some (.xorReg 1 2), some (.addReg 1 2),
     some (.subReg 1 2), some (.shr 1 2), some (.subnReg 1 2), some (.shl 1 2)] := by decide

theorem test_decode_index_memory :
    [0b1010001011110000, 0b1111001000011110, 0b1111001100101001, 0b1111000000110011, 0b1111001001010101,
     0b1111001001100101].map (decodeTableWord 16) =
    [some (.ldI 0x2F0), some (.addIVx 2), some (.ldFVx 3), some (.ldBVx 0), some (.ldMemVx 2),
     some (.ldVxMem 2)] := by decide

theorem test_decode_display :
    [0b0000000011100000, 0b1101000100100101].map (decodeTableWord 16) = [some .cls, some (.drw 1 2 5)] := by decide

theorem test_decode_keyboard_timers :
    [0b1110010110011110, 0b1110010110100001, 0b1111001100000111, 0b1111001000001010, 0b1111000100010101,
     0b1111000100011000].map (decodeTableWord 16) =
    [some (.skp 5), some (.sknp 5), some (.ldVxDt 3), some (.ldVxK 2), some (.ldDtVx 1), some (.ldStVx 1)] := by decide

/-- 30_encoding.md R83, a word of each row, with the vectors D-SER-4, D-SNER-3, D-DEC-2 and D-DEC-3. -/
theorem test_decode_undefined_codes :
    [0x5121, 0x8128, 0x812D, 0x812F, 0x912F, 0xE1FF, 0xF1FF].map (decodeTableWord 16) =
    [none, none, none, none, none, none, none] := by decide

/-- The encoder's words, from the same encodings. -/
theorem test_encode :
    [encode (.sys 0x123), encode .cls, encode .ret, encode (.jp 0xABC), encode (.seImm 3 0x42), encode (.seReg 1 2),
     encode (.shl 1 2), encode (.drw 1 2 5), encode (.sknp 5), encode (.ldVxMem 2)] =
    [0x0123, 0x00E0, 0x00EE, 0x1ABC, 0x3342, 0x5120, 0x812E, 0xD125, 0xE5A1, 0xF265] := by decide

/-! ### Ill-formed terms -/

/-- 0x00E0 and 0x00EE are no SYS words (40_control_flow.md R100). -/
theorem test_wellFormed_refuses_sys :
    [Instr.wellFormed (.sys 0x0E0), Instr.wellFormed (.sys 0x0EE), Instr.wellFormed (.sys 0x0EF)] =
    [false, false, true] := by decide

/-- Two host keys for one logical key: no injective map (10_state.md R35). -/
theorem test_bind_refuses_no_injection :
    perform (.bind [(⟨1⟩, 4), (⟨2⟩, 4)]) State.reset = .refused .bindingNotInjective := rfl

/-- Two entries for one host key: no map (10_state.md R35). -/
theorem test_bind_refuses_no_map :
    perform (.bind [(⟨1⟩, 4), (⟨1⟩, 5)]) State.reset = .refused .bindingNotInjective := rfl

/-- Fewer bytes than the length says (log 4). -/
theorem test_load_refuses_short_buffer : perform (.load [0x12] 2) State.reset = .refused .loadBufferTooShort := rfl

/-- A map in any order gives one table (45_keyboard_timers.md R236; log 4). -/
theorem test_bind_any_order : (call State.reset (.bind [(⟨9⟩, 0), (⟨1⟩, 15)])).map (fun a => a.state.binding) =
    some [(⟨1⟩, 15), (⟨9⟩, 0)] := by decide

/-- Fewer than two bytes hold no word (30_encoding.md R71). -/
theorem test_decode_refuses_one_byte : decode [0x12] = .error .shortInput := rfl

/-! ### Control flow -/

/-- D-SYS-2 -/
theorem test_sys : shows (run State.reset 0x0123)
    (fun t => t.mode == .halted .illegalInstruction && t.pc == 0x202) = true := by decide

/-- D-DEC-1: a Super-CHIP word. -/
theorem test_sys_super_chip : shows (run State.reset 0x00FE) (fun t => t.mode == .halted .illegalInstruction) = true := by
  decide

/-- D-RET-1 -/
theorem test_ret : shows (run (({ State.reset with sp := 1, stack := State.reset.stack.set 0 0x202 }).setPc 0x300) 0x00EE)
    (fun t => t.pc == 0x202 && t.sp == 0) = true := by decide

/-- D-RET-2 -/
theorem test_ret_empty : shows (run State.reset 0x00EE)
    (fun t => t.mode == .halted .capacityExceeded && t.pc == 0x202 && t.sp == 0) = true := by decide

/-- D-JP-1 -/
theorem test_jp : shows (run State.reset 0x1ABC) (fun t => t.pc == 0xABC) = true := by decide

/-- D-CALL-3 -/
theorem test_call_last : shows (run (({ State.reset with sp := 15 }).setPc 0x400) 0x2300)
    (fun t => t.stack[15] == 0x402 && t.sp == 16 && t.pc == 0x300) = true := by decide

/-- D-CALL-2 -/
theorem test_call_full : shows (run { State.reset with sp := 16 } 0x2300)
    (fun t => t.mode == .halted .capacityExceeded && t.pc == 0x202 && t.sp == 16 && t.stack == State.reset.stack) =
    true := by decide

/-- D-JPV0-2 -/
theorem test_jpV0 : shows (run (State.reset.setReg 0 0xFF) 0xBFFF) (fun t => t.pc == 0x10FE) = true := by decide

/-- D-JPV0-3: under the quirk the offset is V2. -/
theorem test_jumpOffset_quirk : jumpOffset true 0x210 (with2 0 0x00 2 0x20) = 0x20 := by decide

/-! ### Skips -/

/-- D-SE-1, D-SE-2 -/
theorem test_seImm : [shows (run (State.reset.setReg 3 0x42) 0x3342) (fun t => t.pc == 0x204),
    shows (run (State.reset.setReg 3 0x41) 0x3342) (fun t => t.pc == 0x202)] = [true, true] := by decide

/-- D-SNE-1, D-SNE-2 -/
theorem test_sneImm : [shows (run (State.reset.setReg 3 0x42) 0x4342) (fun t => t.pc == 0x202),
    shows (run State.reset 0x4342) (fun t => t.pc == 0x204)] = [true, true] := by decide

/-- D-SER-1, D-SER-2 -/
theorem test_seReg : [shows (run (with2 1 7 2 7) 0x5120) (fun t => t.pc == 0x204),
    shows (run (with2 1 7 2 8) 0x5120) (fun t => t.pc == 0x202)] = [true, true] := by decide

/-- D-SNER-1, D-SNER-2 -/
theorem test_sneReg : [shows (run (with2 1 7 2 8) 0x9120) (fun t => t.pc == 0x204),
    shows (run (with2 1 7 2 8) 0x9110) (fun t => t.pc == 0x202)] = [true, true] := by decide

/-- D-SKIPEND, its first step: no bound check on the address skipped to. -/
theorem test_skip_end : shows (run (State.reset.setPc 0xFFE) 0x3000) (fun t => t.pc == 0x1002 && t.mode == .ready) =
    true := by decide

/-! ### Arithmetic and logic -/

/-- D-LDI, and 6FNN of D-VF-7. -/
theorem test_ldImm : [shows (run (flagged 1 0 2 0) 0x6A02) (fun t => t.reg 10 == 0x02 && t.reg 15 == 0xAA),
    shows (run State.reset 0x6FAA) (fun t => t.reg 15 == 0xAA)] = [true, true] := by decide

/-- D-ADDI-2, and 7FNN of D-VF-7. -/
theorem test_addImm : [shows (run (flagged 1 0x01 2 0) 0x71FF) (fun t => t.reg 1 == 0x00 && t.reg 15 == 0xAA),
    shows (run (State.reset.setReg 15 0xAA) 0x7F01) (fun t => t.reg 15 == 0xAB)] = [true, true] := by decide

/-- D-LDR -/
theorem test_ldReg : shows (run (flagged 1 0 2 0x33) 0x8120) (fun t => t.reg 1 == 0x33 && t.reg 15 == 0xAA) = true := by
  decide

/-- D-OR -/
theorem test_orReg : shows (run (flagged 1 0xF0 2 0x0F) 0x8121) (fun t => t.reg 1 == 0xFF && t.reg 15 == 0xAA) =
    true := by decide

/-- D-AND -/
theorem test_andReg : shows (run (flagged 1 0xF0 2 0x3C) 0x8122) (fun t => t.reg 1 == 0x30 && t.reg 15 == 0xAA) =
    true := by decide

/-- D-XOR-1, D-XOR-2 -/
theorem test_xorReg : [shows (run (flagged 1 0xFF 2 0x0F) 0x8123) (fun t => t.reg 1 == 0xF0 && t.reg 15 == 0xAA),
    shows (run (flagged 1 0x5A 2 0) 0x8113) (fun t => t.reg 1 == 0x00 && t.reg 15 == 0xAA)] = [true, true] := by decide

/-- D-ADD-3, D-ADD-4, D-ADD-5 -/
theorem test_addReg : [shows (run (with2 1 0xFF 2 0xFF) 0x8124) (fun t => t.reg 1 == 0xFE && t.reg 15 == 1),
    shows (run (flagged 1 0x7F 2 0x80) 0x8124) (fun t => t.reg 1 == 0xFF && t.reg 15 == 0),
    shows (run (with2 1 0x80 2 0) 0x8114) (fun t => t.reg 1 == 0x00 && t.reg 15 == 1)] = [true, true, true] := by decide

/-- D-VF-1, D-VF-2, D-VF-6: VF as destination and as source. -/
theorem test_addReg_vf : [shows (run (with2 15 0x10 1 0xF5) 0x8F14) (fun t => t.reg 15 == 1),
    shows (run (with2 15 0x10 1 0x05) 0x8F14) (fun t => t.reg 15 == 0),
    shows (run (with2 1 0x01 15 0xFF) 0x81F4) (fun t => t.reg 1 == 0x00 && t.reg 15 == 1)] = [true, true, true] := by
  decide

/-- D-SUB-2, D-SUB-3, D-SUB-4, D-VF-5 -/
theorem test_subReg : [shows (run (with2 1 0x05 2 0x05) 0x8125) (fun t => t.reg 1 == 0x00 && t.reg 15 == 1),
    shows (run (with2 1 0x0A 2 0x03) 0x8125) (fun t => t.reg 1 == 0x07 && t.reg 15 == 1),
    shows (run (flagged 1 0x03 2 0x0A) 0x8125) (fun t => t.reg 1 == 0xF9 && t.reg 15 == 0),
    shows (run (with2 15 0x05 1 0x05) 0x8F15) (fun t => t.reg 15 == 1)] = [true, true, true, true] := by decide

/-- D-SUBN-1, D-SUBN-2 -/
theorem test_subnReg : [shows (run (with2 1 0x03 2 0x0A) 0x8127) (fun t => t.reg 1 == 0x07 && t.reg 15 == 1),
    shows (run (flagged 1 0x0A 2 0x03) 0x8127) (fun t => t.reg 1 == 0xF9 && t.reg 15 == 0)] = [true, true] := by decide

/-- D-SHR-1, D-SHR-3, D-VF-3 -/
theorem test_shr : [shows (run (State.reset.setReg 1 0x05) 0x8106) (fun t => t.reg 1 == 0x02 && t.reg 15 == 1),
    shows (run (flagged 1 0x80 2 0) 0x8106) (fun t => t.reg 1 == 0x40 && t.reg 15 == 0),
    shows (run (State.reset.setReg 15 0x03) 0x8F06) (fun t => t.reg 15 == 1)] = [true, true, true] := by decide

/-- D-SHR-Q: under the quirk V[Y] = 0x03 is shifted. -/
theorem test_shiftSource_shr_quirk : (shiftSource true 1 2 (with2 1 0x00 2 0x03) >>> 1,
    shrFlag (shiftSource true 1 2 (with2 1 0x00 2 0x03))) = ((0x01 : Byte), (1 : Byte)) := by decide

/-- D-SHL-1, D-SHL-2 -/
theorem test_shl : [shows (run (State.reset.setReg 1 0x81) 0x810E) (fun t => t.reg 1 == 0x02 && t.reg 15 == 1),
    shows (run (flagged 1 0x7F 2 0) 0x810E) (fun t => t.reg 1 == 0xFE && t.reg 15 == 0)] = [true, true] := by decide

/-- D-SHL-Q: under the quirk V[Y] = 0x40 is shifted. -/
theorem test_shiftSource_shl_quirk : (shiftSource true 1 2 (with2 1 0xFF 2 0x40) <<< 1,
    shlFlag (shiftSource true 1 2 (with2 1 0xFF 2 0x40))) = ((0x80 : Byte), (0 : Byte)) := by decide

/-- D-RND-1 on the mask: the draw is free, so the result is the masked draw and the next draw is another. -/
theorem test_rnd : (run State.reset 0xC10F).map (fun t => (t.reg 1, t.draws)) =
    some (Config.randomByte 0 &&& 0x0F, 1) := rfl

/-- D-RND-1: the mask keeps the low digit of the draw 0xA7. -/
theorem test_rnd_mask : (0xA7 &&& 0x0F : Byte) = 0x07 := by decide

/-! ### Index register and memory transfers -/

/-- D-LDI-1 -/
theorem test_ldI : shows (run State.reset 0xA2F0) (fun t => t.i == 0x02F0) = true := by decide

/-- D-ADDI-I-2, D-ADDI-I-3 -/
theorem test_addIVx : [shows (run ((flagged 1 0 2 1).setI 0x0FFF) 0xF21E) (fun t => t.i == 0x1000 && t.reg 15 == 0xAA),
    shows (run ((flagged 1 0 2 1).setI 0xFFFF) 0xF21E) (fun t => t.i == 0x0000 && t.reg 15 == 0xAA)] =
    [true, true] := by decide

/-- D-FONT-2, D-FONT-3 -/
theorem test_ldFVx : [shows (run (State.reset.setReg 3 0x1A) 0xF329) (fun t => t.i == 0x0032),
    shows (run (State.reset.setReg 3 0x0F) 0xF329) (fun t => t.i == 0x004B)] = [true, true] := by decide

/-- D-BCD-1 -/
theorem test_ldBVx : shows (run ((indexed 0x300).setReg 0 0x9C) 0xF033)
    (fun t => t.byte 0x300 == 1 && t.byte 0x301 == 5 && t.byte 0x302 == 6 && t.i == 0x300) = true := by decide

/-- D-BCD-4 -/
theorem test_ldBVx_outside : shows (run ((indexed 0xFFE).setReg 0 0x7B) 0xF033)
    (fun t => t.byte 0xFFE == 1 && t.byte 0xFFF == 2 && t.mode == .halted .outOfBounds && t.pc == 0x202) = true := by
  decide

/-- D-ST-1 -/
theorem test_ldMemVx : shows (run (((indexed 0x300).setReg 0 1).setReg 1 2 |>.setReg 2 3) 0xF255)
    (fun t => t.byte 0x300 == 1 && t.byte 0x301 == 2 && t.byte 0x302 == 3 && t.byte 0x303 == 0 && t.i == 0x300) =
    true := by decide

/-- D-ST-3, with V6 and V7 as the last that fit, and D-ST-5: the font is not protected. -/
theorem test_ldMemVx_bounds : [shows (run (((indexed 0xFF8).setReg 6 6).setReg 7 7 |>.setReg 8 8) 0xFF55)
      (fun t => t.byte 0xFFE == 6 && t.byte 0xFFF == 7 && t.mode == .halted .outOfBounds && t.i == 0xFF8),
    shows (run (State.reset.setReg 0 0xFF) 0xF055) (fun t => t.byte 0x000 == 0xFF && t.mode == .ready)] =
    [true, true] := by decide

/-- D-ST-4: under the quirk I moves past the transfer. -/
theorem test_indexAfterTransfer_quirk : (indexAfterTransfer true 0x300 2, indexAfterTransfer false 0x300 2) =
    (0x303, 0x300) := by decide

/-- D-LD-1, D-LD-3 -/
theorem test_ldVxMem : [shows (run ((stored 0x300 [1, 2, 3]).setI 0x300) 0xF265)
      (fun t => t.reg 0 == 1 && t.reg 1 == 2 && t.reg 2 == 3 && t.i == 0x300),
    shows (run ((stored 0x30F [0x99]).setI 0x300) 0xFF65) (fun t => t.reg 15 == 0x99)] = [true, true] := by decide

/-- D-LD-2 -/
theorem test_ldVxMem_outside : shows (run (((stored 0xFFF [0x42]).setI 0xFFF).setReg 1 9 |>.setReg 2 9) 0xF265)
    (fun t => t.reg 0 == 0x42 && t.reg 1 == 9 && t.reg 2 == 9 && t.mode == .halted .outOfBounds) = true := by decide

/-- 20_memory.md R53: the first byte of glyph 0 and the last of glyph F. -/
theorem test_font : (State.reset.byte 0x000, State.reset.byte 0x04F, State.reset.byte 0x050) =
    ((0xF0 : Byte), (0x80 : Byte), (0x00 : Byte)) := by decide

/-! ### Display -/

/-- D-CLS-1 -/
theorem test_cls : shows (run (State.reset.setPix (Screen.setPixel State.reset.pix 63 31 true)) 0x00E0)
    (fun t => t.pix == State.reset.pix) = true := by decide

/-- D-DRW-2 (wrap past the right edge, rows 0 and 1), D-DRW-4 (the start wraps), D-DRW-7 (VF's old value is the x
coordinate). -/
theorem test_drw_wraps : [shows (run (State.reset.setReg 0 62) 0xD012)
      (fun t => rowIs t 0 [62, 63, 0, 1] && rowIs t 1 [62, 1] && rowIs t 2 [] && t.reg 15 == 0),
    shows (run (with2 0 70 1 33) 0xD011) (fun t => rowIs t 1 [6, 7, 8, 9] && rowIs t 0 []),
    shows (run (State.reset.setReg 15 5) 0xDF11) (fun t => rowIs t 0 [5, 6, 7, 8] && t.reg 15 == 0)] =
    [true, true, true] := by decide

/-- D-DRW-8, D-DRW-6 -/
theorem test_drw_collides_or_halts : [shows
      (run (((stored 0x300 [0x80]).setI 0x300).setPix (Screen.setPixel State.reset.pix 0 0 true)) 0xD001)
      (fun t => rowIs t 0 [] && t.reg 15 == 1),
    shows (run (indexed 0xFFE) 0xD013)
      (fun t => t.mode == .halted .outOfBounds && t.pix == State.reset.pix && t.reg 15 == 0)] = [true, true] := by decide

/-- R203's collision is a pixel that goes from set to unset, so a draw that only sets pixels has none: D-DRW-9; and, on a
screen with (0,0) set, the second of two equal draws of 0x80, whose first draw is D-DRW-8 (log 31). -/
theorem test_drawSprite_collision :
    [(drawSprite 0 0 [0x80] (Screen.setPixel State.reset.pix 1 0 true)).2,
     (drawSprite 0 0 [0x80] (Screen.setPixel State.reset.pix 0 0 true)).2,
     (drawSprite 0 0 [0x80] (drawSprite 0 0 [0x80] (Screen.setPixel State.reset.pix 0 0 true)).1).2] =
    [false, true, false] := by decide

/-! ### Keyboard and timers -/

/-- D-SKP-1, D-SKP-3 -/
theorem test_skp : [shows (run ((State.reset.setReg 5 4).setKey 4 true) 0xE59E) (fun t => t.pc == 0x204),
    shows (run (State.reset.setReg 5 0x10) 0xE59E) (fun t => t.mode == .halted .invalidKey && t.pc == 0x202)] =
    [true, true] := by decide

/-- D-SKNP-1, D-SKNP-2 -/
theorem test_sknp : [shows (run (State.reset.setReg 5 4) 0xE5A1) (fun t => t.pc == 0x204),
    shows (run ((State.reset.setReg 5 4).setKey 4 true) 0xE5A1) (fun t => t.pc == 0x202)] = [true, true] := by decide

/-- D-LDDT, D-SETDT, D-SETST -/
theorem test_timer_moves : [shows (run (State.reset.setDt 0x3C) 0xF307) (fun t => t.reg 3 == 0x3C),
    shows (run (State.reset.setReg 1 0x3C) 0xF115) (fun t => t.dt == 0x3C && t.st == 0),
    shows (run (State.reset.setReg 1 0x05) 0xF118) (fun t => t.st == 0x05 && t.dt == 0)] = [true, true, true] := by decide

/-- D-WAIT-1, D-WAIT-5: a key that is down does not end the wait. -/
theorem test_ldVxK : shows (run (State.reset.setKey 3 true) 0xF20A)
    (fun t => t.pc == 0x200 && t.mode == .waitingForKey 2) = true := by decide

/-- D-WAIT-3, D-WAIT-4 -/
theorem test_wait_ends : [shows (hosted (State.reset.setMode (.waitingForKey 2)) (.press 7))
      (fun t => t.reg 2 == 7 && t.pc == 0x202 && t.mode == .ready && t.keyDown 7),
    shows (hosted ((State.reset.setMode (.waitingForKey 2)).setKey 7 true) (.release 7))
      (fun t => !t.keyDown 7 && t.mode == .waitingForKey 2)] = [true, true] := by decide

/-- D-PRESS-1, D-PRESS-2 -/
theorem test_press : [shows (hosted State.reset (.press 16)) (fun t => t.mode == .halted .invalidKey),
    shows (hosted (State.reset.setMode (.halted .outOfBounds)) (.press 3))
      (fun t => t.keyDown 3 && t.mode == .halted .outOfBounds)] = [true, true] := by decide

/-- D-TICK-1 (one tick), D-TICK-2 -/
theorem test_tick : [shows (hosted (State.reset.setDt 2) .tickTimers) (fun t => t.dt == 1 && t.st == 0),
    shows (hosted ((State.reset.setSt 1).setMode (.halted .invalidKey)) .tickTimers)
      (fun t => t.st == 0 && t.mode == .halted .invalidKey)] = [true, true] := by decide

/-! ### Cycle and host -/

/-- D-FETCH-2 -/
theorem test_fetch_outside : shows (hosted (State.reset.setPc 0xFFF) .executeNext)
    (fun t => t.mode == .halted .outOfBounds && t.pc == 0xFFF) = true := by decide

/-- D-FETCH-1, D-FETCH-3: the last even address, and an odd one. -/
theorem test_fetch_places : [shows (hosted ((stored 0xFFE [0x12, 0x00]).setPc 0xFFE) .executeNext) (fun t => t.pc == 0x200),
    shows (hosted ((stored 0x201 [0x60, 0xAA]).setPc 0x201) .executeNext)
      (fun t => t.reg 0 == 0xAA && t.pc == 0x203)] = [true, true] := by decide

/-- S1 on two bytes, and D-LOAD-2 with a length alone. -/
theorem test_load : [shows (hosted State.reset (.load [0x12, 0x34] 2)) (fun t => t.byte 0x200 == 0x12 && t.byte 0x201 == 0x34),
    shows (hosted State.reset (.load [] 3585)) (fun t => t.mode == .halted .capacityExceeded && t.mem == [])] =
    [true, true] := by decide

/-- What each call returns (00_scope.md R9). -/
theorem test_replies : [(call State.reset (.isDown 3)).map Answer.reply, (call State.reset (.isSet 64 32)).map Answer.reply,
    (call (State.reset.setSt 5) .readST).map Answer.reply,
    (call { State.reset with binding := [(⟨9⟩, 4)] } (.map ⟨9⟩)).map Answer.reply,
    (call State.reset (.map ⟨9⟩)).map Answer.reply,
    (call (State.reset.setMode (.halted .invalidKey)) .executeNext).map Answer.reply] =
    [some (.bool false), some (.bool false), some (.byte 5), some (.logicalKey (some 4)), some (.logicalKey none),
     some (.failed .invalidKey)] := by decide

/-- From reset with nothing loaded the zero word at 0x200 is a SYS and halts (log 22). -/
theorem test_empty_memory_halts : shows (hosted State.reset .executeNext)
    (fun t => t.mode == .halted .illegalInstruction && t.pc == 0x202) = true := by decide

/-- `initialize()` from Halted (60_exceptions.md R257; 70_reset_and_hazards.md R280). -/
theorem test_reinit : (call ((stored 0x300 [7]).setMode (.halted .invalidKey)) .reinit).map Answer.state = some State.reset :=
  rfl

/-! ### Witnesses: for each statement with hypotheses, concrete values that meet them, each clause at its boundary -/

/-- A state about to run `w` at 0x200. -/
def placed (w : Nat) : State := State.reset.withFetchWord 16 w

theorem test_witness_OpcodeTableWordsDecode : ∃ nnn : Addr12, nnn ≠ 0x0E0 ∧ nnn ≠ 0x0EE := ⟨0x0EF, by decide⟩

theorem test_witness_DecodeEncodeRoundTrip : ∃ i : Instr, i.wellFormed = true := ⟨.drw 15 15 15, rfl⟩

theorem test_witness_EncodeDecodeRoundTrip : ∃ w i, decodeWord w = .ok i := ⟨0x8126, .shr 1 2, rfl⟩

theorem test_witness_DecoderConsumesTwoBytes : ∃ bytes : List Byte, bytes.length < 2 := ⟨[0x12], by decide⟩

theorem test_witness_StepRunsDecodedInstruction : ∃ (s : State) (i : Instr) (rest : List Byte),
    s.mode = .ready ∧ s.nextCall = .executeNext ∧ s.pc.toNat + 1 < 4096 ∧
    decode (s.byte s.pc.toNat :: s.byte (s.pc.toNat + 1) :: rest) = .ok (i, rest) :=
  ⟨(stored 0xFFE [0x12, 0x00]).setPc 0xFFE, .jp 0x200, [], rfl, rfl, by decide, rfl⟩

theorem test_witness_PlacedWordRunsNext : ∃ w i, decodeTableWord 16 w = some i := ⟨0xF20A, .ldVxK 2, by decide⟩

theorem test_witness_FetchIsBigEndianAndBounded : (∃ a, a + 1 < 4096) ∧ (∃ a, 4096 ≤ a + 1) :=
  ⟨⟨0xFFE, by decide⟩, ⟨0xFFF, by decide⟩⟩

theorem test_witness_FetchAndDecodeErrorsHalt :
    (∃ s : State, s.mode = .ready ∧ 4096 ≤ s.pc.toNat + 1) ∧
    (∃ s : State, s.mode = .ready ∧ ∃ w e, s.fetchWord s.pc.toNat = .ok w ∧ decodeWord w = .error e) :=
  ⟨⟨State.reset.setPc 0xFFF, by decide⟩, ⟨placed 0x5121, rfl, 0x5121, .undefinedCode5, rfl, rfl⟩⟩

theorem test_witness_IdleModesDoNothing :
    (∃ (s : State) (x : Reg), s.mode = .waitingForKey x) ∧ (∃ (s : State) (k : ErrorKind), s.mode = .halted k) :=
  ⟨⟨State.reset.setMode (.waitingForKey 15), 15, rfl⟩, ⟨State.reset.setMode (.halted .invalidKey), .invalidKey, rfl⟩⟩

theorem test_witness_MemWriteStoresOneByte : (∃ a, a < 4096) ∧ (∃ a, 4096 ≤ a) := ⟨⟨0xFFF, by decide⟩, ⟨0x1000, by decide⟩⟩

theorem test_witness_CanonicalMemoryIsItsReads :
    ∃ m n : Memory, Memory.wf m ∧ Memory.wf n ∧ ∀ a, Memory.read m a = Memory.read n a :=
  ⟨[(0x300, 1), (0xFFF, 2)], [(0x300, 1), (0xFFF, 2)], by decide, by decide, fun _ => rfl⟩

theorem test_witness_StoredCodeIsFetchedNext :
    (∃ (s : State) (x j : Reg), j ≤ x ∧ s.i.toNat + x.val = 4095) ∧ (∃ s : State, s.i.toNat + 2 = 4095) ∧
    (∃ (s : State) (a : Nat), a + 1 < 4096 ∧ s.i.toNat = a) ∧ (∃ p a : Nat, p + 1 = a ∧ a = 4095) :=
  ⟨⟨indexed 0xFF0, 15, 15, by decide⟩, ⟨indexed 0xFFD, rfl⟩, ⟨indexed 0xFFE, 0xFFE, by decide⟩, ⟨0xFFE, 0xFFF, by decide⟩⟩

theorem test_witness_RetPopsOrHalts :
    (∃ (s : State) (j : Fin 16), s.sp.val = j.val + 1) ∧ (∃ s : State, s.sp.val = 0) :=
  ⟨⟨{ State.reset with sp := 16 }, 15, rfl⟩, ⟨State.reset, rfl⟩⟩

theorem test_witness_JpSetsPc :
    (∃ (s : State) (nnn : Addr12), nnn = 0xFFF ∧ s.mode = .ready) ∧
    (∃ (s : State) (nnn : Addr12), s.mode = .ready ∧ s.pc.toNat = nnn.toNat ∧
      s.fetchWord s.pc.toNat = .ok (.ofNat 16 (0x1000 + nnn.toNat))) :=
  ⟨⟨State.reset, 0xFFF, rfl, rfl⟩, ⟨placed 0x1200, 0x200, rfl, rfl, rfl⟩⟩

theorem test_witness_CallPushesOrHalts :
    (∃ (s : State) (j : Fin 16), s.sp.val = j.val) ∧ (∃ s : State, s.sp.val = 16) :=
  ⟨⟨{ State.reset with sp := 15 }, 15, rfl⟩, ⟨{ State.reset with sp := 16 }, rfl⟩⟩

theorem test_witness_JpV0AddsOffset : ∃ (nnn : Addr12) (x : Reg), x.val = nnn.toNat / 0x100 := ⟨0xFFF, 15, by decide⟩

theorem test_witness_RegisterSkipsMovePcOnly : (∃ x y : Reg, x = y) ∧
    (∃ (s : State) (x y : Reg), s.reg x ≠ s.reg y) :=
  ⟨⟨15, 15, rfl⟩, ⟨with2 1 7 2 8, 1, 2, by decide⟩⟩

theorem test_witness_CopyAndLogicWriteVxOnly : ∃ x y : Reg, x = y := ⟨15, 15, rfl⟩

theorem test_witness_AddSetsCarry : (∃ x : Reg, x ≠ 15) ∧
    (∃ (s : State) (x y : Reg), (s.reg x).toNat + (s.reg y).toNat = 255) ∧
    (∃ (s : State) (x y : Reg), (s.reg x).toNat + (s.reg y).toNat = 256) :=
  ⟨⟨14, by decide⟩, ⟨with2 1 0x7F 2 0x80, 1, 2, by decide⟩, ⟨with2 1 0xFF 2 0x01, 1, 2, by decide⟩⟩

theorem test_witness_SubtractSetsNotBorrow : (∃ x : Reg, x ≠ 15) ∧
    (∃ (s : State) (x y : Reg), x ≠ y ∧ s.reg x = s.reg y) ∧
    (∃ (s : State) (x y : Reg), (s.reg y).toNat = (s.reg x).toNat + 1) :=
  ⟨⟨14, by decide⟩, ⟨with2 1 5 2 5, 1, 2, by decide⟩, ⟨with2 1 0 2 1, 1, 2, by decide⟩⟩

theorem test_witness_ShiftsSetBitShiftedOut :
    ∃ (s : State) (x y : Reg) (src : Byte), src = (if shiftSourceVY then s.reg y else s.reg x) ∧ x ≠ 15 :=
  ⟨with2 1 0x81 2 0x81, 1, 2, 0x81, by decide⟩

theorem test_witness_RndMasksAFreshByte : ∃ nn : Byte, nn = 0 := ⟨0, rfl⟩

theorem test_witness_BcdStoresDigits :
    (∃ s : State, s.i.toNat + 2 = 4095) ∧ (∃ s : State, s.i.toNat + 2 = 4096) ∧ (∃ s : State, s.i.toNat + 1 = 4096) ∧
    (∃ s : State, s.i.toNat = 4096) :=
  ⟨⟨indexed 0xFFD, rfl⟩, ⟨indexed 0xFFE, rfl⟩, ⟨indexed 0xFFF, rfl⟩, ⟨indexed 0x1000, rfl⟩⟩

theorem test_witness_DumpStoresRegisters :
    (∃ (s : State) (x j : Reg), j ≤ x ∧ s.i.toNat + j.val < 4096 ∧ s.i.toNat + x.val = 4095) ∧
    (∃ (s : State) (x j : Reg), j ≤ x ∧ s.i.toNat + j.val = 4095 ∧ s.i.toNat + x.val = 4096) :=
  ⟨⟨indexed 0xFF0, 15, 15, by decide⟩, ⟨indexed 0xFF1, 15, 14, by decide⟩⟩

theorem test_witness_LoadFillsRegisters :
    (∃ (s : State) (x j : Reg), j ≤ x ∧ s.i.toNat + j.val < 4096 ∧ s.i.toNat + x.val = 4095) ∧
    (∃ (s : State) (x j : Reg), j ≤ x ∧ s.i.toNat + j.val = 4095 ∧ s.i.toNat + x.val = 4096) :=
  ⟨⟨indexed 0xFFF, 0, 0, by decide⟩, ⟨indexed 0xFFF, 1, 0, by decide⟩⟩

theorem test_witness_DumpThenLoadRestores : ∃ (s : State) (x j : Reg), s.i.toNat + x.val < 4096 ∧ j ≤ x :=
  ⟨indexed 0xFF0, 15, 15, by decide⟩

/-- The covered pixels that DrwXorsTheSprite speaks of, given by its own condition. -/
theorem test_witness_DrwXorsTheSprite :
    ∃ (s : State) (x y : Reg) (n : Fin 16) (covered : Fin 64 → Fin 32 → Prop),
      (∀ px py, covered px py ↔ ∃ r col, r < n.val ∧ col < 8 ∧
        (s.byte (s.i.toNat + r)).getLsbD (7 - col) = true ∧
        px.val = ((s.reg x).toNat + col) % 64 ∧ py.val = ((s.reg y).toNat + r) % 32) ∧
      (∀ r, r < n.val → s.i.toNat + r < 4096) ∧ covered 1 0 ∧ Screen.pixel s.pix 1 0 = true :=
  ⟨((stored 0xFFF [0x80]).setI 0xFFF).setReg 0 65 |>.setPix (Screen.setPixel State.reset.pix 1 0 true), 0, 1, 1,
    fun px py => ∃ r col, r < (1 : Fin 16).val ∧ col < 8 ∧
      ((stored 0xFFF [0x80]).byte (0xFFF + r)).getLsbD (7 - col) = true ∧
      px.val = (65 + col) % 64 ∧ py.val = (0 + r) % 32,
    fun _ _ => Iff.rfl, by decide, ⟨0, 0, by decide⟩, by decide⟩

theorem test_witness_DrwXorsTheSprite_clear :
    ∃ (s : State) (n : Fin 16), n = 0 ∧ (∀ r, r < n.val → s.i.toNat + r < 4096) ∧
      ∀ px py, Screen.pixel s.pix px py = false :=
  ⟨indexed 0xFFFF, 0, rfl, by decide, by decide⟩

theorem test_witness_DrwOutOfBoundsDrawsNothing :
    ∃ (s : State) (n : Fin 16) (r : Nat), r < n.val ∧ 4096 ≤ s.i.toNat + r := ⟨indexed 0xFFE, 3, 2, by decide⟩

theorem test_witness_DrawingTwiceRestoresTheScreen :
    ∃ (p : Screen) (rows : List Byte), rows.length ≤ 15 ∧ (∀ px py, Screen.pixel p px py = false) ∧ ∃ b ∈ rows, b ≠ 0 :=
  ⟨State.reset.pix, [0x80, 0, 0, 0, 0, 0, 0, 0, 0, 0, 0, 0, 0, 0, 1], by decide, by decide, 0x80, by decide⟩

theorem test_witness_SecondDrawCollidesOnEveryScreen : ∃ rows : List Byte, rows.length ≤ 15 := ⟨[0x80], by decide⟩

theorem test_witness_KeySkipsTestTheKey :
    (∃ (s : State) (x : Reg) (k : Key), (s.reg x).toNat = k.val) ∧ (∃ (s : State) (x : Reg), 16 ≤ (s.reg x).toNat) :=
  ⟨⟨State.reset.setReg 5 15, 5, 15, by decide⟩, ⟨State.reset.setReg 5 16, 5, by decide⟩⟩

theorem test_witness_KeyWaitEndsWithThePress :
    ∃ (s : State) (x : Reg) (w : Word), s.mode = .ready ∧ s.fetchWord s.pc.toNat = .ok w ∧
      decodeWord w = .ok (.ldVxK x) :=
  ⟨placed 0xFF0A, 15, 0xFF0A, rfl, rfl, rfl⟩

theorem test_witness_KeyCallsActOnOneKey :
    (∃ s : State, ∀ x, s.mode ≠ .waitingForKey x) ∧
    (∃ (k : Nat) (c : HostCall), 16 ≤ k ∧ c ∈ [HostCall.press k, HostCall.release k, HostCall.isDown k]) :=
  ⟨⟨State.reset, by decide⟩, ⟨16, .isDown 16, by decide⟩⟩

theorem test_witness_LoadCopiesOrHalts :
    (∃ (bytes : List Byte) (length j : Nat) (b : Byte), length = 3584 ∧ length ≤ bytes.length ∧ j < length ∧
      bytes[j]? = some b) ∧ (∃ length : Nat, 3584 < length) := by
  refine ⟨?_, 3585, by decide⟩
  have h : ∀ n : Nat, 0 < n → ∃ (bytes : List Byte) (length j : Nat) (b : Byte), length = n ∧ length ≤ bytes.length ∧
      j < length ∧ bytes[j]? = some b := fun n hn =>
    ⟨.replicate n 7, n, n - 1, 7, rfl, by simp, by omega, by simp [hn]⟩
  exact h 3584 (by decide)

theorem test_witness_LoadedProgramReadsBack :
    ∃ (s t : State) (bytes : List Byte) (n : Nat), 0 < n ∧ perform (.load bytes n) s = .next ⟨t, .ok⟩ :=
  ⟨State.reset, stored 0x200 [0x12, 0x34], [0x12, 0x34, 0x56], 2, by decide, rfl⟩

theorem test_witness_BindReplacesAndMapLooksUp :
    ∃ (H : Type) (_ : HostKeys H) (table : List (H × Key)) (g h : H) (k : Key),
      table.Pairwise (fun c d => c.1 ≠ d.1) ∧ table.Pairwise (fun c d => c.2 ≠ d.2) ∧ (h, k) ∈ table ∧
      ∀ k, (g, k) ∉ table :=
  ⟨Fin 3, ⟨fun h => ⟨h.val⟩, by decide⟩, [(2, 0), (0, 15)], 1, 2, 0, by decide, by decide, by decide, by decide⟩

theorem test_witness_IsSetReadsTheWrappedPixel :
    ∃ (x y : Nat) (px : Fin 64) (py : Fin 32), px.val = x % 64 ∧ py.val = y % 32 := ⟨127, 64, 63, 0, by decide⟩

theorem test_witness_FirstFetchIsAtTheLoadAddress :
    ∃ (m : Memory) (w : Word) (i : Instr),
      w.toNat = 0x100 * (Memory.read m 0x200).toNat + (Memory.read m 0x201).toNat ∧ decodeWord w = .ok i :=
  ⟨[(0x200, 0x00), (0x201, 0xE0)], 0x00E0, .cls, by decide, rfl⟩

theorem test_witness_StepKeepsTheInvariant :
    Memory.wf State.reset.mem ∧ Binding.wf State.reset.binding ∧ State.reset.pc.toNat ≤ 0x10FE ∧
    (∀ j : Fin 16, State.reset.stack[j].toNat ≤ 0x1000) ∧ (∀ x, State.reset.mode ≠ .waitingForKey x) ∧
    ∃ t, step State.reset = .next t :=
  ⟨by decide, by decide, by decide, by decide, by decide, _, rfl⟩

theorem test_witness_HaltedIsTerminal :
    ∃ (s t : State) (k : ErrorKind), s.mode = .halted k ∧ s.nextCall ≠ .reinit ∧ step s = .next t :=
  ⟨State.reset.setMode (.halted .invalidKey), _, .invalidKey, rfl, by decide, rfl⟩

theorem test_witness_OnlyAPressWakes :
    (∃ (s t : State) (x : Reg), s.mode = .waitingForKey x ∧ step s = .next t ∧ s.nextCall = .press 15 ∧ t.mode = .ready) ∧
    (∃ (s t : State) (x : Reg), s.mode = .waitingForKey x ∧ step s = .next t ∧ t.mode = .waitingForKey x) ∧
    (∃ (s t : State) (x : Reg), s.mode = .waitingForKey x ∧ step s = .next t ∧ t.mode = .halted .invalidKey) ∧
    (∃ (s t : State) (x : Reg), s.mode = .waitingForKey x ∧ step s = .next t ∧ t.mode = .halted .capacityExceeded) :=
  ⟨⟨{ State.reset.setMode (.waitingForKey 2) with hostCalls := [.press 15] }, _, 2, rfl, rfl, rfl, rfl⟩,
    ⟨State.reset.setMode (.waitingForKey 2), _, 2, rfl, rfl, rfl⟩,
    ⟨{ State.reset.setMode (.waitingForKey 2) with hostCalls := [.isDown 16] }, _, 2, rfl, rfl, rfl⟩,
    ⟨{ State.reset.setMode (.waitingForKey 2) with hostCalls := [.load [] 3585] }, _, 2, rfl, rfl, rfl⟩⟩

theorem test_witness_InstructionsLeaveReadyAsTabled :
    (∃ (i : Instr) (s t : State), s.mode = .ready ∧ exec i s = .next t ∧ t.mode = .waitingForKey 2) ∧
    (∃ (i : Instr) (s t : State), s.mode = .ready ∧ exec i s = .next t ∧ t.mode = .halted .illegalInstruction) ∧
    (∃ (i : Instr) (s t : State), s.mode = .ready ∧ exec i s = .next t ∧ t.mode = .halted .capacityExceeded) ∧
    (∃ (i : Instr) (s t : State), s.mode = .ready ∧ exec i s = .next t ∧ t.mode = .halted .invalidKey) ∧
    (∃ (i : Instr) (s t : State), s.mode = .ready ∧ exec i s = .next t ∧ t.mode = .halted .outOfBounds) :=
  ⟨⟨.ldVxK 2, State.reset, _, rfl, rfl, rfl⟩, ⟨.sys 0, State.reset, _, rfl, rfl, rfl⟩, ⟨.ret, State.reset, _, rfl, rfl, rfl⟩,
    ⟨.skp 0, State.reset.setReg 0 16, _, rfl, rfl, rfl⟩, ⟨.ldVxMem 0, indexed 0x1000, _, rfl, rfl, rfl⟩⟩

theorem test_witness_StateIsWrittenByItsOwnersOnly :
    ∃ (i : Instr) (s t : State), exec i s = .next t ∧ i ≠ .cls ∧ (∀ x y n, i ≠ .drw x y n) ∧ i ≠ .ret ∧
      (∀ nnn, i ≠ .call nnn) ∧ (∀ x, i ≠ .ldBVx x) ∧ (∀ x, i ≠ .ldMemVx x) :=
  ⟨.jp 0x300, State.reset, _, rfl, nofun, nofun, nofun, nofun, nofun, nofun⟩

theorem test_witness_VfHasOnlyItsWriters :
    ∃ (i : Instr) (s t : State), exec i s = .next t ∧ t.reg 15 ≠ s.reg 15 :=
  ⟨.subReg 1 2, State.reset, _, rfl, by decide⟩

theorem test_witness_DelayTimerAndIndexHaveOnlyTheirWriters :
    (∃ (i : Instr) (s t : State), exec i s = .next t ∧ ∀ x, i ≠ .ldDtVx x) ∧
    (∃ (i : Instr) (s t : State), exec i s = .next t ∧ t.i ≠ s.i) :=
  ⟨⟨.ldVxDt 1, State.reset, _, rfl, nofun⟩, ⟨.addIVx 1, State.reset.setReg 1 1, _, rfl, by decide⟩⟩

theorem test_witness_NoInstructionReadsTheSoundTimer :
    (∃ (i : Instr) (s t : State), exec i s = .next t ∧ ∀ x, i ≠ .ldStVx x) ∧
    (∃ (i : Instr) (s t : State), exec i s = .next t ∧ ∃ x, i = .ldStVx x) ∧
    (∃ (c : HostCall) (s : State) (a : Answer), c ≠ .tickTimers ∧ c ≠ .reinit ∧ c ≠ .executeNext ∧ perform c s = .next a) :=
  ⟨⟨.ldVxDt 1, State.reset, _, rfl, nofun⟩, ⟨.ldStVx 1, State.reset, _, rfl, 1, rfl⟩,
    ⟨.press 3, State.reset, _, nofun, nofun, nofun, rfl⟩⟩

theorem test_witness_EndedRunsStayEnded :
    (∃ (s : State) (k : ErrorKind), s.mode = .halted k) ∧
    (∃ (s : State) (w : Word) (nnn : Addr12), s.mode = .ready ∧ s.fetchWord s.pc.toNat = .ok w ∧
      decodeWord w = .ok (.jp nnn) ∧ zext16 nnn = s.pc) :=
  ⟨⟨State.reset.setMode (.halted .invalidKey), .invalidKey, rfl⟩, ⟨placed 0x1200, 0x1200, 0x200, rfl, rfl, rfl, by decide⟩⟩

/-- Words of each row of the undefined codes (IllegalWordsAreTheUndefinedCodes). -/
theorem test_witness_IllegalWordsAreTheUndefinedCodes :
    [decodeWord 0x5001, decodeWord 0x900F, decodeWord 0x8FFD, decodeWord 0xE09F, decodeWord 0xFF66] =
    [.error .undefinedCode5, .error .undefinedCode9, .error .undefinedCode8, .error .undefinedCodeE,
     .error .undefinedCodeF] := rfl

end Sys2Proof.Tests
end

section
/-! SUPPORT. ST and the instructions (10_state.md R27): every shared operation, and so every instruction but FX18,
commutes with a write of ST; of the host calls, only `tick_timers()` and a reset change it themselves. -/

namespace Sys2Proof.Machine

open Sys2Proof.Config

/-- The same ending with ST holding `b`, whether the operation was done or raised. -/
def endWithSt (b : Byte) (r : Except State State) : Except State State :=
  match r with
  | .ok s => .ok (s.setSt b)
  | .error h => .error (h.setSt b)

/-- The same outcome of an instruction with ST holding `b` in the state after it. -/
def outcomeWithSt (b : Byte) (o : Host.Outcome State Fault Refusal) : Host.Outcome State Fault Refusal :=
  match o with
  | .next t => .next (t.setSt b)
  | .fault f => .fault f
  | .refused r => .refused r

theorem endStep_endWithSt (b : Byte) (r : Except State State) :
    endStep (endWithSt b r) = outcomeWithSt b (endStep r) := by
  cases r <;> rfl

/-! ### The shared operations commute with a write of ST -/

section SetSt

variable (s : State) (b : Byte)

/-- Writing back the value that ST holds changes nothing. -/
theorem State.setSt_self : s.setSt s.st = s := rfl

theorem State.halt_setSt (kind : ErrorKind) : (s.setSt b).halt kind = (s.halt kind).setSt b := by
  rw [State.halt_eq, State.halt_eq]
  rfl

theorem State.skip_setSt (c : Bool) : (s.setSt b).skip c = (s.skip c).setSt b := by
  rw [State.skip_eq, State.skip_eq]
  rfl

theorem State.readBytes_setSt (a n : Nat) : (s.setSt b).readBytes a n = (s.readBytes a n).mapError (·.setSt b) := by
  by_cases h : n = 0 ∨ a + n ≤ memSize
  · rw [State.readBytes_inside _ h, State.readBytes_inside _ h]
    rfl
  · have hn : 0 < n := by omega
    have ha : memSize < a + n := by omega
    rw [State.readBytes_outside _ hn ha, State.readBytes_outside _ hn ha, State.halt_setSt]
    rfl

theorem State.writeBytes_setSt (a : Nat) (bytes : List Byte) :
    (s.setSt b).writeBytes a bytes = endWithSt b (s.writeBytes a bytes) := by
  by_cases h : bytes = [] ∨ a + bytes.length ≤ memSize
  · rw [State.writeBytes_inside _ h, State.writeBytes_inside _ h]
    rfl
  · obtain ⟨hb, ha⟩ := not_or.1 h
    rw [State.writeBytes_outside _ hb (Nat.lt_of_not_le ha), State.writeBytes_outside _ hb (Nat.lt_of_not_le ha)]
    exact congrArg Except.error (State.halt_setSt (s.setMem _) b _)

theorem fillRegs_setSt (a : Nat) (xs : List Reg) : fillRegs (s.setSt b) a xs = (fillRegs s a xs).setSt b := by
  induction xs generalizing s a with
  | nil => rfl
  | cons x rest ih => exact ih (s.setReg x (s.byte a)) (a + 1)

theorem State.loadRegs_setSt (a : Nat) (xs : List Reg) :
    (s.setSt b).loadRegs a xs = endWithSt b (s.loadRegs a xs) := by
  by_cases h : xs = [] ∨ a + xs.length ≤ memSize
  · rw [State.loadRegs_inside _ h, State.loadRegs_inside _ h, fillRegs_setSt]
    rfl
  · obtain ⟨hx, ha⟩ := not_or.1 h
    rw [State.loadRegs_outside _ hx (Nat.lt_of_not_le ha), State.loadRegs_outside _ hx (Nat.lt_of_not_le ha),
      fillRegs_setSt, State.halt_setSt]
    rfl

theorem State.push_setSt (w : Word) : (s.setSt b).push w = endWithSt b (s.push w) := by
  by_cases h : s.sp.val < stackDepth
  · have hj : s.sp.val = (⟨s.sp.val, h⟩ : Fin stackDepth).val := rfl
    rw [State.push_room s w hj, State.push_room (s.setSt b) w hj]
    rfl
  · have hfull : s.sp.val = stackDepth := by omega
    rw [State.push_full s w hfull, State.push_full (s.setSt b) w hfull, State.halt_setSt]
    rfl

theorem State.keyIndex_setSt (k : Nat) : (s.setSt b).keyIndex k = (s.keyIndex k).mapError (·.setSt b) := by
  by_cases h : k < numKeys
  · have hk (u : State) : u.keyIndex k = .ok ⟨k, h⟩ := State.keyIndex_key u ⟨k, h⟩
    rw [hk, hk]
    rfl
  · rw [State.keyIndex_invalid _ (Nat.le_of_not_lt h), State.keyIndex_invalid _ (Nat.le_of_not_lt h),
      State.halt_setSt]
    rfl

theorem finishTransfer_endWithSt (increments : Bool) (x : Reg) (r : Except State State) :
    finishTransfer increments x (endWithSt b r) = endWithSt b (finishTransfer increments x r) := by
  cases r <;> rfl

/-! ### The instructions that can raise -/

theorem execRet_setSt : execRet (s.setSt b) = outcomeWithSt b (execRet s) := by
  unfold execRet
  rw [← endStep_endWithSt]
  by_cases h0 : s.sp.val = 0
  · rw [State.pop_empty s h0, State.pop_empty (s.setSt b) h0]
    exact congrArg (fun t => endStep (.error t)) (State.halt_setSt s b _)
  · obtain ⟨j, hj⟩ : ∃ j : Fin stackDepth, s.sp.val = j.val + 1 :=
      ⟨⟨s.sp.val - 1, by omega⟩, (Nat.sub_add_cancel (Nat.pos_of_ne_zero h0)).symm⟩
    rw [State.pop_entry s hj, State.pop_entry (s.setSt b) hj]
    rfl

theorem execCall_setSt (nnn : Addr12) : execCall nnn (s.setSt b) = outcomeWithSt b (execCall nnn s) := by
  unfold execCall
  rw [← endStep_endWithSt, State.setSt_pc, State.push_setSt]
  cases s.push s.pc <;> rfl

theorem execDrw_setSt (x y : Reg) (n : Fin 16) : execDrw x y n (s.setSt b) = outcomeWithSt b (execDrw x y n s) := by
  unfold execDrw
  rw [← endStep_endWithSt, State.setSt_i, State.readBytes_setSt]
  cases s.readBytes s.i.toNat n.val <;> rfl

theorem execSkp_setSt (x : Reg) : execSkp x (s.setSt b) = outcomeWithSt b (execSkp x s) := by
  unfold execSkp
  rw [← endStep_endWithSt, State.reg_setSt, State.keyIndex_setSt]
  cases s.keyIndex (s.reg x).toNat with
  | error h => rfl
  | ok k => exact congrArg (fun t => endStep (.ok t)) (State.skip_setSt s b _)

theorem execSknp_setSt (x : Reg) : execSknp x (s.setSt b) = outcomeWithSt b (execSknp x s) := by
  unfold execSknp
  rw [← endStep_endWithSt, State.reg_setSt, State.keyIndex_setSt]
  cases s.keyIndex (s.reg x).toNat with
  | error h => rfl
  | ok k => exact congrArg (fun t => endStep (.ok t)) (State.skip_setSt s b _)

theorem execLdBVx_setSt (x : Reg) : execLdBVx x (s.setSt b) = outcomeWithSt b (execLdBVx x s) := by
  unfold execLdBVx
  rw [State.setSt_i, State.reg_setSt, State.writeBytes_setSt, endStep_endWithSt]

theorem execLdMemVx_setSt (x : Reg) : execLdMemVx x (s.setSt b) = outcomeWithSt b (execLdMemVx x s) := by
  have hregs : (s.setSt b).reg = s.reg := rfl
  unfold execLdMemVx
  rw [State.setSt_i, hregs, State.writeBytes_setSt, finishTransfer_endWithSt, endStep_endWithSt]

theorem execLdVxMem_setSt (x : Reg) : execLdVxMem x (s.setSt b) = outcomeWithSt b (execLdVxMem x s) := by
  unfold execLdVxMem
  rw [State.setSt_i, State.loadRegs_setSt, finishTransfer_endWithSt, endStep_endWithSt]

end SetSt

/-! ### Every instruction -/

/-- An instruction other than FX18 carries ST through and looks at it nowhere: run with another value of ST, it has the
same outcome but for that value. -/
theorem exec_setSt {i : Instr} (hi : ∀ x, i ≠ .ldStVx x) (s : State) (b : Byte) :
    exec i (s.setSt b) = outcomeWithSt b (exec i s) := by
  cases i with
  | ldStVx x => exact absurd rfl (hi x)
  | sys nnn => exact congrArg Host.Outcome.next (State.halt_setSt s b _)
  | ret => exact execRet_setSt s b
  | call nnn => exact execCall_setSt s b nnn
  | drw x y n => exact execDrw_setSt s b x y n
  | skp x => exact execSkp_setSt s b x
  | sknp x => exact execSknp_setSt s b x
  | ldBVx x => exact execLdBVx_setSt s b x
  | ldMemVx x => exact execLdMemVx_setSt s b x
  | ldVxMem x => exact execLdVxMem_setSt s b x
  | seImm | sneImm | seReg | sneReg => exact congrArg Host.Outcome.next (State.skip_setSt s b _)
  | cls | jp | jpV0 | ldImm | addImm | ldReg | orReg | andReg | xorReg | addReg | subReg | shr | subnReg | shl | rnd
  | ldI | addIVx | ldFVx | ldVxDt | ldVxK | ldDtVx => rfl

/-- The step of an instruction other than FX18, taken with another value of ST. -/
theorem exec_setSt_of_next {i : Instr} (hi : ∀ x, i ≠ .ldStVx x) {s t : State} (h : exec i s = .next t) (b : Byte) :
    exec i (s.setSt b) = .next (t.setSt b) := by
  rw [exec_setSt hi, h]
  rfl

/-- Only FX18 changes ST: every other instruction gives the same state when ST is first written with its own value, so
the state it leaves holds that value. -/
theorem exec_keeps_st {i : Instr} (hi : ∀ x, i ≠ .ldStVx x) {s t : State} (h : exec i s = .next t) :
    t.st = s.st := by
  have hsame := exec_setSt_of_next hi h s.st
  rw [State.setSt_self, h, Host.Outcome.next.injEq] at hsame
  rw [hsame, State.setSt_st]

/-- FX18 overwrites ST without looking at it (45_keyboard_timers.md R229). -/
theorem exec_ldStVx_setSt (x : Reg) (s : State) (b : Byte) : exec (.ldStVx x) (s.setSt b) = exec (.ldStVx x) s := rfl

/-! ### The host calls -/

/-- A key index is rejected by a halt and by nothing else (45_keyboard_timers.md R220). -/
theorem State.keyIndex_error {s h : State} {k : Nat} (hk : s.keyIndex k = .error h) : h = s.halt .invalidKey := by
  by_cases hlt : k < numKeys
  · rw [State.keyIndex_key s ⟨k, hlt⟩] at hk
    cases hk
  · rw [State.keyIndex_invalid s (Nat.le_of_not_lt hlt)] at hk
    cases hk
    rfl

theorem State.endWait_st (s : State) (k : Key) : (s.endWait k).st = s.st := by
  unfold State.endWait
  split <;> rfl

theorem callPress_st (k : Nat) (s : State) : (callPress k s).state.st = s.st := by
  unfold callPress
  split
  · rename_i hk
    rw [State.keyIndex_error hk, State.halt_st]
  · rw [State.endWait_st, State.setKey_st]

theorem callRelease_st (k : Nat) (s : State) : (callRelease k s).state.st = s.st := by
  unfold callRelease
  split
  · rename_i hk
    rw [State.keyIndex_error hk, State.halt_st]
  · rfl

theorem callIsDown_st (k : Nat) (s : State) : (callIsDown k s).state.st = s.st := by
  unfold callIsDown
  split
  · rename_i hk
    rw [State.keyIndex_error hk, State.halt_st]
  · rfl

theorem callLoad_st {bytes : List Byte} {length : Nat} {s : State} {a : Answer}
    (h : callLoad bytes length s = .next a) : a.state.st = s.st := by
  unfold callLoad at h
  split at h
  · cases h
    exact State.halt_st s _
  · split at h <;> cases h
    rfl

theorem callBind_st {table : Binding} {s : State} {a : Answer} (h : callBind table s = .next a) :
    a.state.st = s.st := by
  unfold callBind at h
  split at h <;> cases h
  rfl

/-- No host call but `tick_timers()`, a reset and an instruction's own step changes ST. -/
theorem perform_keeps_st {c : HostCall} {s : State} {a : Answer} (htick : c ≠ .tickTimers) (hreinit : c ≠ .reinit)
    (hexec : c ≠ .executeNext) (h : perform c s = .next a) : a.state.st = s.st := by
  cases c with
  | tickTimers => exact absurd rfl htick
  | reinit => exact absurd rfl hreinit
  | executeNext => exact absurd rfl hexec
  | load bytes length => exact callLoad_st h
  | bind table => exact callBind_st h
  | press k => cases h; exact callPress_st k s
  | release k => cases h; exact callRelease_st k s
  | isDown k => cases h; exact callIsDown_st k s
  | map | isSet | readST => cases h; rfl

/-- Settles O59: every instruction but FX18 commutes with a write of ST, which gives both that it reads no ST and that
it changes none; FX18 overwrites ST; the host calls keep it, and the host's read returns it. -/
theorem noInstructionReadsTheSoundTimer : Obligations.NoInstructionReadsTheSoundTimer := by
  unfold Obligations.NoInstructionReadsTheSoundTimer
  refine ⟨fun i s t b h => ⟨fun hi => ⟨exec_keeps_st hi h, exec_setSt_of_next hi h b⟩, ?_⟩,
    fun _ _ _ htick hreinit hexec h => perform_keeps_st htick hreinit hexec h, fun _ => rfl⟩
  rintro ⟨x, rfl⟩
  rw [exec_ldStVx_setSt, h]

end Sys2Proof.Machine
end

section
/-! SUPPORT. Memory as an instruction and the host use it (20_memory.md R56 to R59): the word fetched, the byte stored,
the program loaded, and the OutOfBounds raise past the end of memory. -/

namespace Sys2Proof.Machine

open Sys2Proof.Config

/-- An operation that raises `kind` in `s` halts with it and changes nothing but the mode (60_exceptions.md R251). -/
theorem raise_haltedWith_frame {α : Type} {s : State} {kind : ErrorKind} {r : Except State α}
    (h : r = .error (s.halt kind)) : ∃ t, r = .error t ∧ HaltedWith kind s t ∧ Frame (· = .mode) s t :=
  ⟨s.halt kind, h, haltedWith_halt s kind, frame_halt s kind⟩

/-- One byte stored touches its address alone. -/
theorem frame_setMem_write (s : State) (a : Nat) (b : Byte) :
    Frame (· = .byte a) s (s.setMem (Memory.write s.mem a b)) := by
  refine frame_setMem s _ _ fun a' hne => ?_
  have haa' : a ≠ a' := fun h => hne (h ▸ rfl)
  rw [Memory.read_write, if_neg haa']

/-- `load` succeeds exactly when the program fits in memory and the host hands over enough bytes; it then stores
exactly the stated number of them (20_memory.md R58). -/
theorem callLoad_ok_iff {bytes : List Byte} {n : Nat} {s t : State} :
    callLoad bytes n s = .next ⟨t, .ok⟩ ↔
      loadAddr + n ≤ memSize ∧ n ≤ bytes.length ∧
        t = s.setMem (Memory.writeList s.mem loadAddr (bytes.take n)) := by
  unfold callLoad
  split
  case isTrue hbig => simp [raiseTo, Nat.not_le.2 hbig]
  case isFalse hfits =>
    split
    case isTrue hshort => simp [Nat.not_le.2 hshort]
    case isFalse henough => simp [Nat.le_of_not_lt hfits, Nat.le_of_not_lt henough, eq_comm]

/-- The byte at position `j` of a stored list is read `j` past its start. -/
theorem Memory.read_writeList_getElem (m : Memory) (a : Nat) {bytes : List Byte} {j : Nat} (hj : j < bytes.length) :
    Memory.read (Memory.writeList m a bytes) (a + j) = bytes[j] := by
  rw [Memory.read_writeList, if_pos (Nat.le_add_right a j), Nat.add_sub_cancel_left, List.getElem?_eq_getElem hj,
    Option.getD_some]

/-- Settles O12: inside memory the write is `Memory.write`, whose read law gives the byte and the frame; outside it the
write is a halt. -/
theorem memWriteStoresOneByte : Obligations.MemWriteStoresOneByte := by
  unfold Obligations.MemWriteStoresOneByte
  refine fun s a b => ⟨fun ha => ⟨_, State.memWrite_inside s b ha, ?_, frame_setMem_write s a b⟩,
    fun ha => raise_haltedWith_frame (State.memWrite_outside s b ha)⟩
  rw [State.byte_setMem, Memory.read_write, if_pos rfl]

/-- Settles O45: a successful `load` has checked that all its bytes lie inside memory, so each read is in bounds and
gives the byte stored there. -/
theorem loadedProgramReadsBack : Obligations.LoadedProgramReadsBack := by
  unfold Obligations.LoadedProgramReadsBack
  intro s t bytes n hload j hj
  obtain ⟨hfits, hlen, rfl⟩ := callLoad_ok_iff.1 hload
  have hjb : j < bytes.length := Nat.lt_of_lt_of_le hj hlen
  have hjt : j < (bytes.take n).length := by
    rw [List.length_take]
    exact Nat.lt_min.2 ⟨hj, hjb⟩
  have hin : loadAddr + j < memSize := by omega
  refine ⟨bytes[j], List.getElem?_eq_getElem hjb, ?_⟩
  rw [State.memRead_inside _ hin, State.byte_setMem, Memory.read_writeList_getElem _ _ hjt, List.getElem_take]

/-- Settles O9: a fetch whose second byte lies inside memory is the two bytes' word, high byte first; any other is a
halt. -/
theorem fetchIsBigEndianAndBounded : Obligations.FetchIsBigEndianAndBounded := by
  unfold Obligations.FetchIsBigEndianAndBounded
  exact fun s a => ⟨fun ha => ⟨_, State.fetchWord_inside s ha, wordOf_toNat _ _⟩,
    fun ha => raise_haltedWith_frame (State.fetchWord_outside s ha)⟩

end Sys2Proof.Machine
end

section
/-! SUPPORT. What a decoder takes from its input (30_encoding.md R71): two bytes, high byte first, and nothing from a
shorter input. -/

namespace Sys2Proof

/-- A word is the word of two bytes exactly when it has their big-endian value (20_memory.md R57). -/
theorem eq_wordOf_iff {w : Word} {hi lo : Byte} : w = wordOf hi lo ↔ w.toNat = 0x100 * hi.toNat + lo.toNat := by
  rw [← wordOf_toNat, BitVec.toNat_inj]

theorem decode_of_length_lt_two : ∀ {bytes : List Byte}, bytes.length < 2 → decode bytes = .error .shortInput
  | [], _ => rfl
  | [_], _ => rfl

theorem decode_cons_eq_ok_iff {hi lo : Byte} {tail rest : List Byte} {i : Instr} :
    decode (hi :: lo :: tail) = .ok (i, rest) ↔ decodeWord (wordOf hi lo) = .ok i ∧ tail = rest := by
  rw [decode_cons]
  cases decodeWord (wordOf hi lo) with
  | error e => simp [Except.map]
  | ok j => simp [Except.map]

/-- What decodes is two bytes whose word decodes, and the rest is what follows them. -/
theorem decode_eq_ok_iff {bytes rest : List Byte} {i : Instr} :
    decode bytes = .ok (i, rest) ↔
      ∃ hi lo, bytes = hi :: lo :: rest ∧ decodeWord (wordOf hi lo) = .ok i := by
  constructor
  · intro h
    match bytes with
    | [] | [_] => cases h
    | hi :: lo :: tail =>
      obtain ⟨hw, rfl⟩ := decode_cons_eq_ok_iff.1 h
      exact ⟨hi, lo, rfl, hw⟩
  · rintro ⟨hi, lo, rfl, hw⟩
    exact decode_cons_eq_ok_iff.2 ⟨hw, rfl⟩

/-- Settles O5: what decodes is two bytes and a rest, and the word decoded is the one with the bytes' big-endian value;
an input of no byte or of one is refused. -/
theorem decoderConsumesTwoBytes : Obligations.DecoderConsumesTwoBytes := by
  unfold Obligations.DecoderConsumesTwoBytes
  refine ⟨fun bytes rest i => decode_eq_ok_iff.trans ⟨?_, ?_⟩, fun _ => decode_of_length_lt_two⟩
  · rintro ⟨hi, lo, hbytes, hw⟩
    exact ⟨hi, lo, wordOf hi lo, hbytes, wordOf_toNat hi lo, hw⟩
  · rintro ⟨hi, lo, w, hbytes, hval, hw⟩
    obtain rfl : w = wordOf hi lo := eq_wordOf_iff.2 hval
    exact ⟨hi, lo, hbytes, hw⟩

end Sys2Proof
end

section
/-! SUPPORT. The cycle as equations (30_encoding.md R70), and the jump to a literal (40_control_flow.md R102). -/

namespace Sys2Proof

theorem zext16_toNat (nnn : Addr12) : (Machine.zext16 nnn).toNat = nnn.toNat := by
  simp only [Machine.zext16, BitVec.toNat_setWidth]
  omega

/-- A word of the jump's family decodes to the jump to its literal (30_encoding.md R76). -/
theorem decodeWord_of_fieldOp_one {w : Word} (h : fieldOp w = 1) : decodeWord w = .ok (.jp (fieldNNN w)) := by
  simp only [decodeWord, h]

/-- The jump's words are 1NNN. -/
theorem decodeWord_jp (nnn : Addr12) : decodeWord (.ofNat 16 (0x1000 + nnn.toNat)) = .ok (.jp nnn) := by
  have hval : (BitVec.ofNat 16 (0x1000 + nnn.toNat)).toNat = 0x1000 + nnn.toNat := by
    rw [BitVec.toNat_ofNat]
    omega
  have hop : fieldOp (.ofNat 16 (0x1000 + nnn.toNat)) = 1 := by
    rw [fieldOp_eq, hval]
    omega
  have hnnn : fieldNNN (.ofNat 16 (0x1000 + nnn.toNat)) = nnn := by
    apply BitVec.eq_of_toNat_eq
    rw [fieldNNN_toNat, hval]
    omega
  rw [decodeWord_of_fieldOp_one hop, hnnn]

namespace Machine

open Sys2Proof.Config

theorem executeNext_of_fetch_outside {s : State} (hm : s.mode = .ready) (hpc : memSize ≤ s.pc.toNat + 1) :
    executeNext s = .next (s.halt .outOfBounds) := by
  simp only [executeNext, hm, runNext, State.fetchWord_outside s hpc, endStep]

theorem executeNext_of_decoded {s : State} {w : Word} {i : Instr} (hm : s.mode = .ready)
    (hw : s.fetchWord s.pc.toNat = .ok w) (hi : decodeWord w = .ok i) :
    executeNext s = exec i (s.setPc (s.pc + 2)) := by
  simp only [executeNext, hm, runNext, hw, runWord, hi]
  rfl

theorem exec_jp (nnn : Addr12) (s : State) : exec (.jp nnn) s = .next (s.setPc (zext16 nnn)) := rfl

/-- A jump that stands at its own target undoes the advance of pc, which is all that the cycle had changed. -/
theorem executeNext_jp_self {s : State} {w : Word} {nnn : Addr12} (hm : s.mode = .ready)
    (hw : s.fetchWord s.pc.toNat = .ok w) (hi : decodeWord w = .ok (.jp nnn)) (hpc : zext16 nnn = s.pc) :
    executeNext s = .next s := by
  rw [executeNext_of_decoded hm hw hi, exec_jp, hpc]
  rfl

/-- Settles O17: the jump is one write of pc; with pc at 0xFFF the second byte of the next fetch lies outside memory; at
its own target the jump takes pc back to where the cycle found it. -/
theorem jpSetsPc : Obligations.JpSetsPc := by
  unfold Obligations.JpSetsPc
  refine fun s nnn => ⟨decodeWord_jp nnn, ⟨_, exec_jp nnn s, zext16_toNat nnn, frame_setPc s _, ?_⟩, ?_⟩
  · rintro rfl hm
    have hout : memSize ≤ (s.setPc (zext16 0xFFF)).pc.toNat + 1 := by
      rw [State.setPc_pc, zext16_toNat]
      decide
    have hready : ∀ k, (s.setPc (zext16 0xFFF)).mode ≠ .halted k := fun k => by
      rw [State.setPc_mode, hm]
      exact nofun
    exact ⟨_, executeNext_of_fetch_outside hm hout, State.halt_mode_of_unhalted _ _ hready, State.halt_pc _ _⟩
  · intro hm hpc hw
    exact executeNext_jp_self hm hw (decodeWord_jp nnn) (BitVec.eq_of_toNat_eq (by rw [zext16_toNat, hpc]))

end Machine

end Sys2Proof
end

section
/-! SUPPORT. The words of format XNN (30_encoding.md R72, R73), and the two register operations with a literal (42_alu.md
R141, R142). -/

namespace Sys2Proof

/-! ### Fields of a word of format XNN -/

section FormatXNN

variable (op : BitVec 4) (x : Reg) (nn : Byte)

@[simp] theorem fieldOp_formatXNN : fieldOp (formatXNN op x nn) = op.toNat := by
  have hx : x.val < 16 := x.isLt
  rw [fieldOp_eq, formatXNN_toNat]
  omega

@[simp] theorem fieldX_formatXNN : fieldX (formatXNN op x nn) = x := by
  have hx : x.val < 16 := x.isLt
  apply Fin.ext
  rw [fieldX_val, formatXNN_toNat]
  omega

@[simp] theorem fieldNN_formatXNN : fieldNN (formatXNN op x nn) = nn := by
  apply BitVec.eq_of_toNat_eq
  rw [fieldNN_toNat, formatXNN_toNat]
  omega

theorem ofNat_eq_formatXNN :
    .ofNat 16 (0x1000 * op.toNat + 0x100 * x.val + nn.toNat) = formatXNN op x nn := by
  rw [← formatXNN_toNat, BitVec.ofNat_toNat, BitVec.setWidth_eq]

end FormatXNN

/-! ### Decoding (30_encoding.md R76) -/

theorem decodeWord_of_fieldOp_six {w : Word} (h : fieldOp w = 6) :
    decodeWord w = .ok (.ldImm (fieldX w) (fieldNN w)) := by
  simp only [decodeWord, h]

theorem decodeWord_of_fieldOp_seven {w : Word} (h : fieldOp w = 7) :
    decodeWord w = .ok (.addImm (fieldX w) (fieldNN w)) := by
  simp only [decodeWord, h]

/-- The literal load's words are 6XNN. -/
theorem decodeWord_ldImm (x : Reg) (nn : Byte) :
    decodeWord (.ofNat 16 (0x6000 + 0x100 * x.val + nn.toNat)) = .ok (.ldImm x nn) := by
  have hw : .ofNat 16 (0x6000 + 0x100 * x.val + nn.toNat) = formatXNN 6 x nn := ofNat_eq_formatXNN 6 x nn
  rw [hw, decodeWord_of_fieldOp_six (fieldOp_formatXNN 6 x nn), fieldX_formatXNN, fieldNN_formatXNN]

/-- The literal addition's words are 7XNN. -/
theorem decodeWord_addImm (x : Reg) (nn : Byte) :
    decodeWord (.ofNat 16 (0x7000 + 0x100 * x.val + nn.toNat)) = .ok (.addImm x nn) := by
  have hw : .ofNat 16 (0x7000 + 0x100 * x.val + nn.toNat) = formatXNN 7 x nn := ofNat_eq_formatXNN 7 x nn
  rw [hw, decodeWord_of_fieldOp_seven (fieldOp_formatXNN 7 x nn), fieldX_formatXNN, fieldNN_formatXNN]

/-! ### Execution -/

namespace Machine

theorem exec_ldImm (x : Reg) (nn : Byte) (s : State) : exec (.ldImm x nn) s = .next (s.setReg x nn) := rfl

theorem exec_addImm (x : Reg) (nn : Byte) (s : State) :
    exec (.addImm x nn) s = .next (s.setReg x (s.reg x + nn)) := rfl

theorem State.reg_setReg_same (s : State) (x : Reg) (b : Byte) : (s.setReg x b).reg x = b := by
  rw [State.reg_setReg, if_pos rfl]

/-- Settles O22: each of the two is one write of V[X], whose frame is that register alone; the byte addition wraps at
256. -/
theorem literalLoadAndAdd : Obligations.LiteralLoadAndAdd := by
  unfold Obligations.LiteralLoadAndAdd
  refine fun s x nn => ⟨decodeWord_ldImm x nn, decodeWord_addImm x nn,
    ⟨_, exec_ldImm x nn s, State.reg_setReg_same s x nn, frame_setReg s x nn⟩,
    ⟨_, exec_addImm x nn s, ?_, frame_setReg s x _⟩⟩
  rw [State.reg_setReg_same, BitVec.toNat_add]

end Machine

end Sys2Proof
end

section
/-! SUPPORT. CLS (44_display.md R200): its word, its execution as one write of the screen, and the pixels it touches. -/

namespace Sys2Proof

theorem decodeWord_cls : decodeWord 0x00E0 = .ok .cls := rfl

namespace Machine

theorem exec_cls (s : State) : exec .cls s = .next (s.setPix Screen.clear) := rfl

/-- Replacing the whole screen touches pixels alone. -/
theorem frame_setPix_pixels (s : State) (q : Screen) : Frame (fun p => ∃ px py, p = .pixel px py) s (s.setPix q) :=
  frame_setPix s q _ fun x y hpixel => absurd ⟨x, y, rfl⟩ hpixel

/-- Settles O33: CLS is one write of the screen, whose frame is the pixels; the screen written is the clear one, in
which every pixel is unset. -/
theorem clsUnsetsEveryPixel : Obligations.ClsUnsetsEveryPixel := by
  unfold Obligations.ClsUnsetsEveryPixel
  refine ⟨decodeWord_cls, fun s => ⟨_, exec_cls s, fun px py => ?_, frame_setPix_pixels s _⟩⟩
  rw [State.setPix_pix, Screen.pixel_clear]

end Machine

end Sys2Proof
end

section
/-! SUPPORT. Decoding and encoding are inverse (30_encoding.md R72, R73, R76, R83): the fields of the words of formats
NNN and XYN, a word from its fields, and each family's function codes said once. -/

namespace Sys2Proof

/-! ### Fields of the words of formats NNN and XYN -/

section FormatFields

variable (op : BitVec 4) (x y : Reg) (n : Fin 16) (nnn : Addr12)

@[simp] theorem fieldOp_formatNNN : fieldOp (formatNNN op nnn) = op.toNat := by
  rw [fieldOp_eq, formatNNN_toNat]
  omega

@[simp] theorem fieldNNN_formatNNN : fieldNNN (formatNNN op nnn) = nnn := by
  apply BitVec.eq_of_toNat_eq
  rw [fieldNNN_toNat, formatNNN_toNat]
  omega

@[simp] theorem fieldOp_formatXYN : fieldOp (formatXYN op x y n) = op.toNat := by
  have hx : x.val < 16 := x.isLt
  have hy : y.val < 16 := y.isLt
  rw [fieldOp_eq, formatXYN_toNat]
  omega

@[simp] theorem fieldX_formatXYN : fieldX (formatXYN op x y n) = x := by
  have hx : x.val < 16 := x.isLt
  have hy : y.val < 16 := y.isLt
  apply Fin.ext
  rw [fieldX_val, formatXYN_toNat]
  omega

@[simp] theorem fieldY_formatXYN : fieldY (formatXYN op x y n) = y := by
  have hy : y.val < 16 := y.isLt
  apply Fin.ext
  rw [fieldY_val, formatXYN_toNat]
  omega

@[simp] theorem fieldN_formatXYN : fieldN (formatXYN op x y n) = n := by
  apply Fin.ext
  rw [fieldN_val, formatXYN_toNat]
  omega

end FormatFields

/-! ### A word from its fields -/

section OfFields

variable {w : Word} {op : BitVec 4} (hop : fieldOp w = op.toNat)

include hop

theorem formatNNN_fields : formatNNN op (fieldNNN w) = w := by
  apply BitVec.eq_of_toNat_eq
  rw [fieldOp_eq] at hop
  rw [formatNNN_toNat, fieldNNN_toNat]
  omega

theorem formatXNN_fields : formatXNN op (fieldX w) (fieldNN w) = w := by
  apply BitVec.eq_of_toNat_eq
  rw [fieldOp_eq] at hop
  rw [formatXNN_toNat, fieldX_val, fieldNN_toNat]
  omega

theorem formatXYN_fields : formatXYN op (fieldX w) (fieldY w) (fieldN w) = w := by
  apply BitVec.eq_of_toNat_eq
  rw [fieldOp_eq] at hop
  rw [formatXYN_toNat, fieldX_val, fieldY_val, fieldN_val]
  omega

end OfFields

/-! ### Decoding what was encoded -/

theorem decodeWord_of_fieldOp_zero {w : Word} (h : fieldOp w = 0) :
    decodeWord w = if w = 0x00E0 then .ok .cls else if w = 0x00EE then .ok .ret else .ok (.sys (fieldNNN w)) := by
  simp only [decodeWord, h]

/-- Format NNN with op 0 is shared by SYS, CLS and RET; the two words of the latter are set apart. -/
theorem decodeWord_formatNNN_zero {nnn : Addr12} (hcls : nnn ≠ 0x0E0) (hret : nnn ≠ 0x0EE) :
    decodeWord (formatNNN 0x0 nnn) = .ok (.sys nnn) := by
  have hne (k : Addr12) (h : nnn ≠ k) : formatNNN 0x0 nnn ≠ formatNNN 0x0 k := fun he =>
    h (by simpa using congrArg fieldNNN he)
  rw [decodeWord_of_fieldOp_zero (fieldOp_formatNNN 0x0 nnn), fieldNNN_formatNNN]
  exact (if_neg (hne 0x0E0 hcls)).trans (if_neg (hne 0x0EE hret))

/-- Settles O3: the decoder reads back the fields from which the encoder's format was built; only SYS has words that are
another instruction's. -/
theorem decodeEncodeRoundTrip : Obligations.DecodeEncodeRoundTrip := by
  unfold Obligations.DecodeEncodeRoundTrip
  intro i hwf
  cases i with
  | sys nnn =>
    obtain ⟨hcls, hret⟩ : nnn ≠ 0x0E0 ∧ nnn ≠ 0x0EE := by simpa [Instr.wellFormed] using hwf
    exact decodeWord_formatNNN_zero hcls hret
  | cls | ret => rfl
  | jp | call | ldI | jpV0 => simp [encode, decodeWord]
  | seImm | sneImm | ldImm | addImm | rnd => simp [encode, decodeWord]
  | seReg | sneReg | drw => simp [encode, decodeWord]
  | ldReg | orReg | andReg | xorReg | addReg | subReg | shr | subnReg | shl => simp [encode, decodeWord, decode8]
  | skp | sknp => simp [encode, decodeWord, decodeE]
  | ldVxDt | ldVxK | ldDtVx | ldStVx | addIVx | ldFVx | ldBVx | ldMemVx | ldVxMem =>
    simp [encode, decodeWord, decodeF]

/-! ### The opcode table -/

/-- The number of an instruction's word decodes to the instruction. -/
theorem decodeWord_ofNat {i : Instr} {n : Nat} (hwf : i.wellFormed = true) (hn : (encode i).toNat = n) :
    decodeWord (.ofNat 16 n) = .ok i := by
  rw [← hn, BitVec.ofNat_toNat, BitVec.setWidth_eq]
  exact decodeEncodeRoundTrip i hwf

theorem Instr.wellFormed_sys {nnn : Addr12} (hcls : nnn ≠ 0x0E0) (hret : nnn ≠ 0x0EE) :
    (Instr.sys nnn).wellFormed = true := by
  simp only [Instr.wellFormed, Bool.and_eq_true, bne_iff_ne]
  exact ⟨hcls, hret⟩

/-- Settles O1: each row's pattern is the number of the encoder's word, and that word decodes to its instruction. -/
theorem opcodeTableWordsDecode : Obligations.OpcodeTableWordsDecode := by
  unfold Obligations.OpcodeTableWordsDecode
  intro x y n nn nnn
  refine ⟨fun hcls hret => decodeWord_ofNat (Instr.wellFormed_sys hcls hret) ?_, rfl, rfl, ?_⟩
  · simp [encode, formatNNN_toNat]
  and_intros
  all_goals
    refine decodeWord_ofNat rfl ?_
    simp only [encode, formatNNN_toNat, formatXNN_toNat, formatXYN_toNat, BitVec.ofNat_eq_ofNat, BitVec.toNat_ofNat,
      Fin.isValue] <;> omega

/-! ### Each instruction word has one meaning -/

theorem encode_of_decode8 {x y n : Fin 16} {i : Instr} (h : decode8 x y n.val = .ok i) :
    i.wellFormed = true ∧ encode i = formatXYN 0x8 x y n := by
  unfold decode8 at h
  split at h <;> cases h
  all_goals
    rename_i hn
    exact ⟨rfl, congrArg (formatXYN 0x8 x y) (Fin.ext hn.symm)⟩

theorem encode_of_decodeE {x : Reg} {nn : Byte} {i : Instr} (h : decodeE x nn.toNat = .ok i) :
    i.wellFormed = true ∧ encode i = formatXNN 0xE x nn := by
  unfold decodeE at h
  split at h <;> cases h
  all_goals
    rename_i hnn
    exact ⟨rfl, congrArg (formatXNN 0xE x) (BitVec.eq_of_toNat_eq hnn.symm)⟩

theorem encode_of_decodeF {x : Reg} {nn : Byte} {i : Instr} (h : decodeF x nn.toNat = .ok i) :
    i.wellFormed = true ∧ encode i = formatXNN 0xF x nn := by
  unfold decodeF at h
  split at h <;> cases h
  all_goals
    rename_i hnn
    exact ⟨rfl, congrArg (formatXNN 0xF x) (BitVec.eq_of_toNat_eq hnn.symm)⟩

/-- The word of a SYS that the decoder gave is the word decoded, and CLS and RET were ruled out before. -/
theorem encode_of_decodeWord_zero {w : Word} {i : Instr} (hop : fieldOp w = 0) (h : decodeWord w = .ok i) :
    i.wellFormed = true ∧ encode i = w := by
  have hw : formatNNN 0x0 (fieldNNN w) = w := formatNNN_fields hop
  rw [decodeWord_of_fieldOp_zero hop] at h
  split at h
  case isTrue hcls => cases h; exact ⟨rfl, hcls.symm⟩
  case isFalse hcls =>
    split at h
    case isTrue hret => cases h; exact ⟨rfl, hret.symm⟩
    case isFalse hret =>
      cases h
      exact ⟨Instr.wellFormed_sys (fun he => hcls (by rw [← hw, he]; rfl)) (fun he => hret (by rw [← hw, he]; rfl)), hw⟩

/-- Settles O4: by the family of the word; in each the operands are the word's fields, from which the word is built
again. -/
theorem encodeDecodeRoundTrip : Obligations.EncodeDecodeRoundTrip := by
  unfold Obligations.EncodeDecodeRoundTrip
  intro w i h
  have hlt : fieldOp w < 16 := (w.extractLsb' 12 4).isLt
  have hdec := h
  unfold decodeWord at h
  split at h
  case h_1 hop => exact encode_of_decodeWord_zero hop hdec
  case h_6 hop | h_10 hop =>
    split at h <;> cases h
    rename_i hn
    exact ⟨rfl, by rw [encode, ← hn]; exact formatXYN_fields hop⟩
  case h_9 hop =>
    obtain ⟨hwf, hword⟩ := encode_of_decode8 h
    exact ⟨hwf, hword.trans (formatXYN_fields hop)⟩
  case h_15 hop =>
    obtain ⟨hwf, hword⟩ := encode_of_decodeE h
    exact ⟨hwf, hword.trans (formatXNN_fields hop)⟩
  case h_16 =>
    have hop : fieldOp w = 0xF := by
      simp only [imp_false] at *
      omega
    obtain ⟨hwf, hword⟩ := encode_of_decodeF h
    exact ⟨hwf, hword.trans (formatXNN_fields hop)⟩
  case h_14 hop => cases h; exact ⟨rfl, formatXYN_fields hop⟩
  case h_2 hop | h_3 hop | h_11 hop | h_12 hop => cases h; exact ⟨rfl, formatNNN_fields hop⟩
  case h_4 hop | h_5 hop | h_7 hop | h_8 hop | h_13 hop => cases h; exact ⟨rfl, formatXNN_fields hop⟩

/-! ### The undefined codes -/

theorem decode8_error_iff {x y : Reg} {n : Nat} (hn : n < 16) :
    (∃ e, decode8 x y n = .error e) ↔ n ∈ [0x8, 0x9, 0xA, 0xB, 0xC, 0xD, 0xF] := by
  interval_cases n <;> simp [decode8]

theorem decodeE_error_iff {x : Reg} {nn : Nat} : (∃ e, decodeE x nn = .error e) ↔ nn ∉ [0x9E, 0xA1] := by
  unfold decodeE
  split <;> simp_all

theorem decodeF_error_iff {x : Reg} {nn : Nat} :
    (∃ e, decodeF x nn = .error e) ↔ nn ∉ [0x07, 0x0A, 0x15, 0x18, 0x1E, 0x29, 0x33, 0x55, 0x65] := by
  unfold decodeF
  split <;> simp_all

/-- Settles O2: by the family of the word; only the families 5, 8, 9, E and F have undefined codes, which are told by
the function code N or the function byte NN. -/
theorem illegalWordsAreTheUndefinedCodes : Obligations.IllegalWordsAreTheUndefinedCodes := by
  unfold Obligations.IllegalWordsAreTheUndefinedCodes
  intro w
  have hlt : fieldOp w < 16 := (w.extractLsb' 12 4).isLt
  rw [← fieldOp_eq, ← fieldN_val, ← fieldNN_toNat]
  unfold decodeWord
  split
  case h_1 hop =>
    split
    · simp [hop]
    · split <;> simp [hop]
  case h_9 hop => simp only [decode8_error_iff (fieldN w).isLt, hop]; simp
  case h_15 hop => simp only [decodeE_error_iff, hop]; simp
  case h_16 =>
    have hop : fieldOp w = 0xF := by
      simp only [imp_false] at *
      omega
    simp only [decodeF_error_iff, hop]; simp
  case h_6 hop | h_10 hop =>
    by_cases hn : fieldN w = 0 <;> simp [hop, hn]
  all_goals
    rename_i hop
    simp [hop]

/-- Settles O6: each word is a closed term. -/
theorem sampleWordsDecode : Obligations.SampleWordsDecode := by
  unfold Obligations.SampleWordsDecode
  decide

end Sys2Proof
end

section
/-! SUPPORT. The host calls (00_scope.md R9): an equation for each branch, and every state a call other than
`execute_next()` can leave, said once. -/

namespace Sys2Proof.Machine

open Sys2Proof.Config

/-- A number is a logical key or is past them (45_keyboard_timers.md R220). -/
theorem key_or_invalid (k : Nat) : (∃ j : Key, k = j.val) ∨ numKeys ≤ k := by
  by_cases hk : k < numKeys
  · exact .inl ⟨⟨k, hk⟩, rfl⟩
  · exact .inr (Nat.le_of_not_lt hk)

section Calls

variable (s : State)

theorem State.endWait_of_waiting {x : Reg} (k : Key) (hm : s.mode = .waitingForKey x) :
    s.endWait k = ((s.setReg x (.ofNat 8 k.val)).setPc (s.pc + 2)).setMode .ready := by
  unfold State.endWait
  rw [hm, instrLength_eq]

theorem State.endWait_of_not_waiting (k : Key) (hm : ∀ x, s.mode ≠ .waitingForKey x) : s.endWait k = s := by
  unfold State.endWait
  cases hmode : s.mode with
  | waitingForKey x => exact absurd hmode (hm x)
  | ready | halted => rfl

theorem callPress_key (k : Key) : callPress k.val s = ⟨(s.setKey k true).endWait k, .ok⟩ := by
  simp only [callPress, State.keyIndex_key]

theorem callRelease_key (k : Key) : callRelease k.val s = ⟨s.setKey k false, .ok⟩ := by
  simp only [callRelease, State.keyIndex_key]

theorem callIsDown_key (k : Key) : callIsDown k.val s = ⟨s, .bool (s.keyDown k)⟩ := by
  simp only [callIsDown, State.keyIndex_key]

theorem callPress_invalid {k : Nat} (h : numKeys ≤ k) : callPress k s = ⟨s.halt .invalidKey, .failed .invalidKey⟩ := by
  simp only [callPress, State.keyIndex_invalid s h]

theorem callRelease_invalid {k : Nat} (h : numKeys ≤ k) :
    callRelease k s = ⟨s.halt .invalidKey, .failed .invalidKey⟩ := by
  simp only [callRelease, State.keyIndex_invalid s h]

theorem callIsDown_invalid {k : Nat} (h : numKeys ≤ k) :
    callIsDown k s = ⟨s.halt .invalidKey, .failed .invalidKey⟩ := by
  simp only [callIsDown, State.keyIndex_invalid s h]

theorem callLoad_fits {bytes : List Byte} {n : Nat} (hfits : loadAddr + n ≤ memSize) (hlen : n ≤ bytes.length) :
    callLoad bytes n s = .next ⟨s.setMem (Memory.writeList s.mem loadAddr (bytes.take n)), .ok⟩ :=
  callLoad_ok_iff.2 ⟨hfits, hlen, rfl⟩

theorem callLoad_tooLarge (bytes : List Byte) {n : Nat} (h : memSize < loadAddr + n) :
    callLoad bytes n s = .next ⟨s.halt .capacityExceeded, .failed .capacityExceeded⟩ := if_pos h

end Calls

/-- `AfterCall s c t`: `t` is one of the states that the host call `c`, other than `execute_next()`, can leave when it
is made in `s`. -/
inductive AfterCall (s : State) : HostCall → State → Prop where
  | reinit : AfterCall s .reinit (Machine.reinit s)
  | load (bytes : List Byte) (n : Nat) : loadAddr + n ≤ memSize →
      AfterCall s (.load bytes n) (s.setMem (Memory.writeList s.mem loadAddr (bytes.take n)))
  | loadTooLarge (bytes : List Byte) (n : Nat) : AfterCall s (.load bytes n) (s.halt .capacityExceeded)
  | bind (table : Binding) : Binding.isInjectiveMap table →
      AfterCall s (.bind table) { s with binding := Binding.sorted table }
  | map (hostKey : HostKey) : AfterCall s (.map hostKey) s
  | press (k : Key) : AfterCall s (.press k.val) ((s.setKey k true).endWait k)
  | pressInvalid (k : Nat) : numKeys ≤ k → AfterCall s (.press k) (s.halt .invalidKey)
  | release (k : Key) : AfterCall s (.release k.val) (s.setKey k false)
  | releaseInvalid (k : Nat) : numKeys ≤ k → AfterCall s (.release k) (s.halt .invalidKey)
  | isDown (k : Key) : AfterCall s (.isDown k.val) s
  | isDownInvalid (k : Nat) : numKeys ≤ k → AfterCall s (.isDown k) (s.halt .invalidKey)
  | tickTimers : AfterCall s .tickTimers ((s.setDt (tickDown s.dt)).setSt (tickDown s.st))
  | isSet (x y : Nat) : AfterCall s (.isSet x y) s
  | readST : AfterCall s .readST s

/-- Every next state of a host call is one that `AfterCall` lists. -/
theorem perform_after {c : HostCall} {s t : State} {reply : Reply} (hc : c ≠ .executeNext)
    (h : perform c s = .next ⟨t, reply⟩) : AfterCall s c t := by
  cases c with
  | executeNext => exact absurd rfl hc
  | reinit => cases h; exact .reinit
  | load bytes n =>
    by_cases hbig : memSize < loadAddr + n
    · rw [perform, callLoad_tooLarge s bytes hbig] at h
      cases h
      exact .loadTooLarge bytes n
    · have hfits : loadAddr + n ≤ memSize := Nat.le_of_not_lt hbig
      simp only [perform, callLoad, if_neg hbig] at h
      split at h <;> cases h
      exact .load bytes n hfits
  | bind table =>
    by_cases hmap : Binding.isInjectiveMap table
    · rw [perform, callBind_map s hmap] at h
      cases h
      exact .bind table hmap
    · rw [perform, callBind_other s hmap] at h
      cases h
  | press k =>
    obtain ⟨j, rfl⟩ | hk := key_or_invalid k
    · rw [perform, callPress_key] at h
      cases h
      exact .press j
    · rw [perform, callPress_invalid s hk] at h
      cases h
      exact .pressInvalid k hk
  | release k =>
    obtain ⟨j, rfl⟩ | hk := key_or_invalid k
    · rw [perform, callRelease_key] at h
      cases h
      exact .release j
    · rw [perform, callRelease_invalid s hk] at h
      cases h
      exact .releaseInvalid k hk
  | isDown k =>
    obtain ⟨j, rfl⟩ | hk := key_or_invalid k
    · rw [perform, callIsDown_key] at h
      cases h
      exact .isDown j
    · rw [perform, callIsDown_invalid s hk] at h
      cases h
      exact .isDownInvalid k hk
  | map hostKey => cases h; exact .map hostKey
  | tickTimers => cases h; exact .tickTimers
  | isSet x y => cases h; exact .isSet x y
  | readST => cases h; exact .readST

/-- A step is an instruction cycle or one of the other host calls, made in the state with the call taken off the list.
-/
theorem step_after {s t : State} (h : step s = .next t) :
    (s.nextCall = .executeNext ∧ executeNext s.dropCall = .next t) ∨ AfterCall s.dropCall s.nextCall t := by
  rcases step_cases h with hexec | ⟨hc, reply, hperform⟩
  · exact .inl hexec
  · exact .inr (perform_after hc hperform)

end Sys2Proof.Machine
end

section
/-! SUPPORT. The machine's invariant: each named update keeps it under its own side condition, and so every instruction
and every host call does. -/

namespace Sys2Proof.Machine

open Sys2Proof.Config

/-! ### pc moved by one word -/

theorem word_add_two_toNat {w : Word} (h : w.toNat + 2 < 0x10000) : (w + 2).toNat = w.toNat + 2 := by bv_omega

theorem word_sub_two_toNat {w : Word} (h : 2 ≤ w.toNat) : (w - 2).toNat = w.toNat - 2 := by bv_omega

/-! ### The updates -/

section Updates

variable {s : State} (h : Inv s)

include h

theorem Inv.setReg (x : Reg) (b : Byte) : Inv (s.setReg x b) := ⟨h.mem, h.binding, h.pc, h.stack, h.waiting⟩

theorem Inv.setI (w : Word) : Inv (s.setI w) := ⟨h.mem, h.binding, h.pc, h.stack, h.waiting⟩

theorem Inv.setDt (b : Byte) : Inv (s.setDt b) := ⟨h.mem, h.binding, h.pc, h.stack, h.waiting⟩

theorem Inv.setSt (b : Byte) : Inv (s.setSt b) := ⟨h.mem, h.binding, h.pc, h.stack, h.waiting⟩

theorem Inv.setPix (p : Screen) : Inv (s.setPix p) := ⟨h.mem, h.binding, h.pc, h.stack, h.waiting⟩

theorem Inv.setKey (k : Key) (b : Bool) : Inv (s.setKey k b) := ⟨h.mem, h.binding, h.pc, h.stack, h.waiting⟩

theorem Inv.dropCall : Inv s.dropCall := ⟨h.mem, h.binding, h.pc, h.stack, h.waiting⟩

theorem Inv.setSp (sp : Fin (stackDepth + 1)) : Inv { s with sp := sp } := ⟨h.mem, h.binding, h.pc, h.stack, h.waiting⟩

theorem Inv.setDraws (n : Nat) : Inv { s with draws := n } := ⟨h.mem, h.binding, h.pc, h.stack, h.waiting⟩

theorem Inv.setMem {m : Memory} (hm : Memory.wf m) : Inv (s.setMem m) := ⟨hm, h.binding, h.pc, h.stack, h.waiting⟩

theorem Inv.setBinding {table : Binding} (ht : Binding.wf table) : Inv { s with binding := table } :=
  ⟨h.mem, ht, h.pc, h.stack, h.waiting⟩

theorem Inv.setPc {w : Word} (hm : ∀ x, s.mode ≠ .waitingForKey x) (hw : w.toNat ≤ 0x10FE) : Inv (s.setPc w) :=
  ⟨h.mem, h.binding, hw, h.stack, fun x hx => absurd hx (hm x)⟩

theorem Inv.setMode {m : Mode} (hm : ∀ x, m ≠ .waitingForKey x) : Inv (s.setMode m) :=
  ⟨h.mem, h.binding, h.pc, h.stack, fun x hx => absurd hx (hm x)⟩

theorem Inv.halt (kind : ErrorKind) : Inv (s.halt kind) := by
  rw [State.halt_eq]
  refine h.setMode fun x => ?_
  cases s.mode <;> exact nofun

theorem Inv.pushEntry (j : Fin stackDepth) {w : Word} (hw : w.toNat ≤ 0x1000) :
    Inv { s with stack := s.stack.set j w } := by
  refine ⟨h.mem, h.binding, h.pc, fun k => ?_, h.waiting⟩
  have hk : (s.stack.set j w)[k] = if j.val = k.val then w else s.stack[k] := Vector.getElem_set ..
  show ((s.stack.set j w)[k]).toNat ≤ 0x1000
  rw [hk]
  split
  · exact hw
  · exact h.stack k

theorem Inv.fillRegs (a : Nat) (xs : List Reg) : Inv (fillRegs s a xs) := by
  rw [fillRegs_eq]
  exact ⟨h.mem, h.binding, h.pc, h.stack, h.waiting⟩

theorem Inv.skip (c : Bool) (hm : ∀ x, s.mode ≠ .waitingForKey x) (hpc : s.pc.toNat ≤ 0x10FC) : Inv (s.skip c) := by
  rw [State.skip_eq]
  refine h.setPc hm ?_
  split
  · rw [word_add_two_toNat (by omega)]
    omega
  · exact h.pc

/-- The press that ends a wait takes pc, at most 0x0FFE while waiting, past the FX0A. -/
theorem Inv.endWait (k : Key) : Inv (s.endWait k) := by
  by_cases hw : ∃ x, s.mode = .waitingForKey x
  · obtain ⟨x, hx⟩ := hw
    have hpc := h.waiting x hx
    rw [State.endWait_of_waiting s k hx]
    refine ⟨h.mem, h.binding, ?_, h.stack, nofun⟩
    show (s.pc + 2).toNat ≤ 0x10FE
    rw [word_add_two_toNat (by omega)]
    omega
  · rw [State.endWait_of_not_waiting s k (not_exists.1 hw)]
    exact h

end Updates

/-! ### Instructions -/

theorem byteToWord_toNat (b : Byte) : (byteToWord b).toNat = b.toNat := by
  simp only [byteToWord, BitVec.toNat_setWidth]
  omega

/-- JP V0's target is an exact sum, at most 0xFFF + 0xFF (10_state.md R25). -/
theorem jumpTarget_toNat (nnn : Addr12) (b : Byte) : (zext16 nnn + byteToWord b).toNat = nnn.toNat + b.toNat := by
  rw [BitVec.toNat_add, zext16_toNat, byteToWord_toNat]
  omega

/-- Every instruction keeps the invariant when it is entered as the cycle enters it: in Ready, with pc past a word that
lies inside memory. -/
theorem After.keeps_inv {i : Instr} {s t : State} (ha : After s i t) (h : Inv s) (hm : s.mode = .ready)
    (hlo : 2 ≤ s.pc.toNat) (hhi : s.pc.toNat ≤ 0x1000) : Inv t := by
  have hnw : ∀ x, s.mode ≠ .waitingForKey x := fun x hx => by rw [hm] at hx; cases hx
  cases ha with
  | sys | retEmpty | callFull | drwOutside | skpInvalid | sknpInvalid => exact h.halt _
  | cls => exact h.setPix _
  | ret j => exact (h.setSp _).setPc hnw (Nat.le_trans (h.stack j) (by decide))
  | call nnn j => exact ((h.pushEntry j hhi).setSp _).setPc hnw (by rw [zext16_toNat]; omega)
  | jp nnn => exact h.setPc hnw (by rw [zext16_toNat]; omega)
  | jpV0 nnn => exact h.setPc hnw (by rw [jumpTarget_toNat]; omega)
  | seImm | sneImm | seReg | sneReg | skp | sknp => exact h.skip _ hnw (by omega)
  | ldImm | addImm | ldReg | orReg | andReg | xorReg | ldVxDt => exact h.setReg _ _
  | addReg | subReg | shr | subnReg | shl => exact (h.setReg _ _).setReg _ _
  | rnd => exact (h.setReg _ _).setDraws _
  | ldI | addIVx | ldFVx => exact h.setI _
  | drw => exact (h.setPix _).setReg _ _
  | ldVxK x =>
    refine ⟨h.mem, h.binding, ?_, h.stack, fun _ _ => ?_⟩
    all_goals
      show (s.pc - 2).toNat ≤ _
      rw [word_sub_two_toNat hlo]
      omega
  | ldDtVx => exact h.setDt _
  | ldStVx => exact h.setSt _
  | ldBVx x bytes hfits => exact h.setMem (Memory.wf_writeList h.mem (.inr hfits))
  | ldBVxOutside x bytes hfits => exact (h.setMem (Memory.wf_writeList h.mem hfits)).halt _
  | ldMemVx x bytes hfits => exact (h.setMem (Memory.wf_writeList h.mem (.inr hfits))).setI _
  | ldMemVxOutside x bytes hfits => exact (h.setMem (Memory.wf_writeList h.mem hfits)).halt _
  | ldVxMem => exact (h.fillRegs _ _).setI _
  | ldVxMemOutside => exact (h.fillRegs _ _).halt _

/-- A cycle enters its instruction with pc past a word that lies inside memory. -/
theorem executeNext_keeps_inv {s t : State} (h : Inv s) (he : executeNext s = .next t) : Inv t := by
  rcases executeNext_cases he with ⟨-, rfl⟩ | ⟨-, -, rfl⟩ | ⟨hm, hpc, w, -, hrun⟩
  · exact h
  · exact h.halt _
  · have hlt : s.pc.toNat + 1 < 4096 := hpc
    have hadv : (s.pc + 2).toNat = s.pc.toNat + 2 := word_add_two_toNat (by omega)
    have hnext : Inv (s.setPc (s.pc + 2)) :=
      h.setPc (fun x hx => by rw [hm] at hx; cases hx) (by omega)
    rcases hrun with ⟨-, -, rfl⟩ | ⟨i, -, hexec⟩
    · exact hnext.halt _
    · exact (exec_after hexec).keeps_inv hnext hm (by rw [State.setPc_pc]; omega) (by rw [State.setPc_pc]; omega)

/-! ### Host calls and steps -/

/-- Settles O50: reset memory is canonical, and every other clause is about a constant of the reset state. -/
theorem resetHoldsTheInvariant : Obligations.ResetHoldsTheInvariant := by
  unfold Obligations.ResetHoldsTheInvariant
  exact ⟨Memory.wf_reset, by decide, by decide, by decide, nofun⟩

theorem inv_reinit {s : State} (h : Inv s) : Inv (Machine.reinit s) := by
  obtain ⟨hmem, -, hpc, hstack, hwaiting⟩ : Inv State.reset := resetHoldsTheInvariant
  exact ⟨hmem, h.binding, hpc, hstack, hwaiting⟩

theorem AfterCall.keeps_inv {c : HostCall} {s t : State} (ha : AfterCall s c t) (h : Inv s) : Inv t := by
  cases ha with
  | reinit => exact inv_reinit h
  | load bytes n hfits =>
    refine h.setMem (Memory.wf_writeList h.mem (.inr ?_))
    have hlen := List.length_take_le n bytes
    omega
  | bind table hmap => exact h.setBinding (Binding.wf_sorted hmap)
  | press k => exact (h.setKey k true).endWait k
  | release k => exact h.setKey k false
  | tickTimers => exact (h.setDt _).setSt _
  | loadTooLarge | pressInvalid | releaseInvalid | isDownInvalid => exact h.halt _
  | map | isDown | isSet | readST => exact h

/-- Settles O51: a step is an instruction cycle or another host call, and each keeps the invariant. -/
theorem stepKeepsTheInvariant : Obligations.StepKeepsTheInvariant := by
  unfold Obligations.StepKeepsTheInvariant
  intro s t h hstep
  rcases step_after hstep with ⟨-, hexec⟩ | hcall
  · exact executeNext_keeps_inv h.dropCall hexec
  · exact hcall.keeps_inv h.dropCall

end Sys2Proof.Machine
end

section
/-! SUPPORT. The canonical form of memory (log 27): a cell is listed exactly where the read differs from what an
unlisted address holds. -/

namespace Sys2Proof.Machine

theorem Memory.read_of_not_listed {m : Memory} {a : Nat} (h : ∀ c ∈ m, c.1 ≠ a) :
    Memory.read m a = Memory.background a := by
  induction m with
  | nil => rfl
  | cons c rest ih =>
    obtain ⟨hc, hrest⟩ := List.forall_mem_cons.1 h
    rw [Memory.read, if_neg hc, ih hrest]

theorem Memory.read_of_listed {m : Memory} (h : m.Pairwise (fun c d => c.1 < d.1)) {c : Host.Cell} (hc : c ∈ m) :
    Memory.read m c.1 = c.2 := by
  induction m with
  | nil => cases hc
  | cons d rest ih =>
    obtain ⟨hd, hrest⟩ := List.pairwise_cons.1 h
    rcases List.mem_cons.1 hc with rfl | hc
    · rw [Memory.read, if_pos rfl]
    · rw [Memory.read, if_neg (Nat.ne_of_lt (hd c hc)), ih hrest hc]

theorem Memory.mem_iff_read {m : Memory} (h : Memory.wf m) (c : Host.Cell) :
    c ∈ m ↔ Memory.read m c.1 = c.2 ∧ c.2 ≠ Memory.background c.1 := by
  obtain ⟨hsorted, hcells⟩ := h
  refine ⟨fun hc => ⟨Memory.read_of_listed hsorted hc, (hcells c hc).2⟩, fun ⟨hread, hne⟩ => ?_⟩
  have hlisted : ∃ d ∈ m, d.1 = c.1 := by
    by_contra hnone
    exact hne (hread ▸ Memory.read_of_not_listed fun d hd he => hnone ⟨d, hd, he⟩)
  obtain ⟨d, hd, haddr⟩ := hlisted
  have hval : d.2 = c.2 := by rw [← Memory.read_of_listed hsorted hd, haddr, hread]
  exact Prod.ext haddr hval ▸ hd

/-- Settles O13: the reads determine which cells are listed, and a list in rising order is determined by its members. -/
theorem canonicalMemoryIsItsReads : Obligations.CanonicalMemoryIsItsReads := by
  unfold Obligations.CanonicalMemoryIsItsReads
  intro m n hm hn hreads
  have : Std.Antisymm (fun c d : Host.Cell => c.1 < d.1) := ⟨fun _ _ hcd hdc => absurd hcd (Nat.lt_asymm hdc)⟩
  have : Std.Irrefl (fun c d : Host.Cell => c.1 < d.1) := ⟨fun c => Nat.lt_irrefl c.1⟩
  exact hm.1.eq_of_mem_iff hn.1 fun c => by rw [Memory.mem_iff_read hm, Memory.mem_iff_read hn, hreads]

end Sys2Proof.Machine
end

section
/-! SUPPORT. The common law of multi-byte transfers (43_index_memory.md R186), said once for the stores and once for the
loads, and the instructions over the index register. -/

namespace Sys2Proof.Machine

open Sys2Proof.Config

/-- An action that raises in `s` leaves a halted state that differs in the mode alone, however the action wraps the
state it leaves (60_exceptions.md R251). -/
theorem exists_haltedWith_frame {α : Type} {wrap : State → α} {s : State} {kind : ErrorKind} {o : α}
    (h : o = wrap (s.halt kind)) : ∃ t, o = wrap t ∧ HaltedWith kind s t ∧ Frame (· = .mode) s t :=
  ⟨s.halt kind, h, haltedWith_halt s kind, frame_halt s kind⟩

/-- How a transfer of `n` bytes from address `a` ends: completed with the mode kept, or, past the end of memory, raised
with OutOfBounds. -/
def TransferEnds (s : State) (a n : Nat) (r : Except State State) (t : State) : Prop :=
  (a + n ≤ memSize ∧ r = .ok t ∧ t.mode = s.mode) ∨ (memSize < a + n ∧ r = .error t ∧ HaltedWith .outOfBounds s t)

/-! ### Stores -/

theorem Memory.read_writeList_other {m : Memory} {a a' : Nat} {bytes : List Byte}
    (h : ∀ j, j < bytes.length → a' ≠ a + j) : Memory.read (Memory.writeList m a bytes) a' = Memory.read m a' := by
  rw [Memory.read_writeList]
  split
  · have hout : bytes.length ≤ a' - a := by
      by_contra hlt
      exact h (a' - a) (by omega) (by omega)
    rw [List.getElem?_eq_none hout, Option.getD_none]
  · rfl

/-- Bytes stored at rising addresses touch those addresses alone. -/
theorem frame_setMem_writeList (s : State) (a : Nat) (bytes : List Byte) :
    Frame (fun p => ∃ j, j < bytes.length ∧ p = .byte (a + j)) s (s.setMem (Memory.writeList s.mem a bytes)) :=
  frame_setMem s _ _ fun _ hout => Memory.read_writeList_other fun j hj he => hout ⟨j, hj, he ▸ rfl⟩

/-- The common law for a store: each byte whose address lies inside memory is stored, nothing else changes but the mode
of a transfer that runs past the end. -/
theorem State.writeBytes_spec (s : State) (a : Nat) {bytes : List Byte} (hne : bytes ≠ []) :
    ∃ t, TransferEnds s a bytes.length (s.writeBytes a bytes) t ∧
      (∀ j (hj : j < bytes.length), a + j < memSize → t.byte (a + j) = bytes[j]) ∧
      Frame (fun p => p = .mode ∨ ∃ j, j < bytes.length ∧ a + j < memSize ∧ p = .byte (a + j)) s t := by
  by_cases hin : a + bytes.length ≤ memSize
  · refine ⟨_, .inl ⟨hin, State.writeBytes_inside s (.inr hin), rfl⟩,
      fun j hj _ => Memory.read_writeList_getElem _ _ hj, ?_⟩
    refine (frame_setMem_writeList s a bytes).weaken ?_
    rintro p ⟨j, hj, rfl⟩
    exact .inr ⟨j, hj, by omega, rfl⟩
  · have hout : memSize < a + bytes.length := Nat.lt_of_not_le hin
    have hraise := haltedWith_halt (s.setMem (Memory.writeList s.mem a (bytes.take (memSize - a)))) .outOfBounds
    refine ⟨_, .inr ⟨hout, State.writeBytes_outside s hne hout, hraise⟩, fun j hj hja => ?_, ?_⟩
    · have hjt : j < (bytes.take (memSize - a)).length := by
        rw [List.length_take]
        omega
      rw [State.byte_halt, State.byte_setMem, Memory.read_writeList_getElem _ _ hjt, List.getElem_take]
    · refine ((frame_setMem_writeList s a _).weaken ?_).trans ((frame_halt _ _).weaken fun _ => .inl)
      rintro p ⟨j, hj, rfl⟩
      rw [List.length_take] at hj
      exact .inr ⟨j, by omega, by omega, rfl⟩

/-! ### Loads -/

theorem byte_fillRegs (s : State) (a : Nat) (xs : List Reg) (b : Nat) : (fillRegs s a xs).byte b = s.byte b := by
  rw [fillRegs_eq]
  rfl

theorem fillRegs_mode (s : State) (a : Nat) (xs : List Reg) : (fillRegs s a xs).mode = s.mode := by
  rw [fillRegs_eq]

/-- The common law for a load: each register whose byte lies inside memory is loaded, nothing else changes but the mode
of a transfer that runs past the end. -/
theorem State.loadRegs_spec (s : State) (a : Nat) {xs : List Reg} (hne : xs ≠ []) (hnodup : xs.Nodup) :
    ∃ t, TransferEnds s a xs.length (s.loadRegs a xs) t ∧
      (∀ j (hj : j < xs.length), a + j < memSize → t.reg xs[j] = s.byte (a + j)) ∧
      Frame (fun p => p = .mode ∨ ∃ j, ∃ hj : j < xs.length, a + j < memSize ∧ p = .reg xs[j]) s t := by
  by_cases hin : a + xs.length ≤ memSize
  · refine ⟨_, .inl ⟨hin, State.loadRegs_inside s (.inr hin), fillRegs_mode s a xs⟩,
      fun j hj _ => fillRegs_reg s a xs hnodup hj, ?_⟩
    refine (frame_fillRegs s a xs).weaken ?_
    rintro p ⟨x, hx, rfl⟩
    obtain ⟨j, hj, rfl⟩ := List.mem_iff_getElem.1 hx
    exact .inr ⟨j, hj, by omega, rfl⟩
  · have hout : memSize < a + xs.length := Nat.lt_of_not_le hin
    have hraise := haltedWith_halt (fillRegs s a (xs.take (memSize - a))) .outOfBounds
    rw [HaltedWith, fillRegs_mode] at hraise
    refine ⟨_, .inr ⟨hout, State.loadRegs_outside s hne hout, hraise⟩, fun j hj hja => ?_, ?_⟩
    · have hjt : j < (xs.take (memSize - a)).length := by
        rw [List.length_take]
        omega
      rw [State.reg_halt, ← fillRegs_reg s a _ (hnodup.sublist (List.take_sublist _ _)) hjt, List.getElem_take]
    · refine ((frame_fillRegs s a _).weaken ?_).trans ((frame_halt _ _).weaken fun _ => .inl)
      rintro p ⟨x, hx, rfl⟩
      obtain ⟨j, hj, rfl⟩ := List.mem_iff_getElem.1 hx
      rw [List.length_take] at hj
      exact .inr ⟨j, by omega, by omega, by rw [List.getElem_take]⟩

/-! ### The end of a transfer -/

theorem indexAfterTransfer_toNat (increments : Bool) (i : Word) (x : Reg) :
    (indexAfterTransfer increments i x).toNat = if increments then (i.toNat + x.val + 1) % 65536 else i.toNat := by
  unfold indexAfterTransfer
  split
  · rw [BitVec.toNat_add, BitVec.toNat_ofNat]
    omega
  · rfl

/-- A transfer's last action moves I as the quirk says if the transfer completed, and does nothing else. -/
theorem finishTransfer_spec {s t : State} {n : Nat} {x : Reg} {r : Except State State} (hn : n = x.val + 1)
    (hends : TransferEnds s s.i.toNat n r t) (hi : t.i = s.i) (increments : Bool) :
    ∃ w, endStep (finishTransfer increments x r) = .next (t.setI w) ∧
      (s.i.toNat + x.val < 4096 → t.mode = s.mode ∧
        w.toNat = if increments then (s.i.toNat + x.val + 1) % 65536 else s.i.toNat) ∧
      (4096 ≤ s.i.toNat + x.val → HaltedWith .outOfBounds s t ∧ w = s.i) := by
  have hsize : memSize = 4096 := rfl
  rcases hends with ⟨hin, rfl, hmode⟩ | ⟨hout, rfl, hraise⟩
  · refine ⟨indexAfterTransfer increments t.i x, rfl, fun _ => ⟨hmode, ?_⟩, fun h => by omega⟩
    rw [indexAfterTransfer_toNat, hi]
  · exact ⟨t.i, rfl, fun h => by omega, fun _ => ⟨hraise, hi⟩⟩

/-! ### The instructions -/

/-- Settles O30: the common law for the stores of V0 to VX, and then the transfer's last action. -/
theorem dumpStoresRegisters : Obligations.DumpStoresRegisters := by
  unfold Obligations.DumpStoresRegisters
  intro s x
  have hlen : ((regsUpTo x).map s.reg).length = x.val + 1 := by rw [List.length_map, regsUpTo_length]
  obtain ⟨t, hends, hbytes, hframe⟩ :=
    s.writeBytes_spec s.i.toNat (List.ne_nil_of_length_eq_add_one hlen)
  obtain ⟨w, hexec, hdone, hraised⟩ :=
    finishTransfer_spec hlen hends (hframe .i (by simp)) loadStoreIncrementsI
  refine ⟨_, hexec, fun j hj hja => ?_, hdone, hraised, ?_⟩
  · have hjl : j.val < ((regsUpTo x).map s.reg).length := by
      rw [hlen]
      exact Nat.lt_succ_of_le hj
    have hget : (regsUpTo x)[j.val]'(by simpa using hjl) = j := Fin.ext (regsUpTo_get x _)
    rw [State.byte_setI, hbytes j.val hjl hja, List.getElem_map, hget]
  · refine (hframe.weaken ?_).trans ((frame_setI t w).weaken fun _ h => .inr (.inl h))
    rintro p (rfl | ⟨j, hj, hja, rfl⟩)
    · exact .inl rfl
    · rw [hlen] at hj
      exact .inr (.inr ⟨⟨j, by have := x.isLt; omega⟩, Nat.le_of_lt_succ hj, hja, rfl⟩)

/-- Settles O31: the common law for the loads of V0 to VX, and then the transfer's last action. -/
theorem loadFillsRegisters : Obligations.LoadFillsRegisters := by
  unfold Obligations.LoadFillsRegisters
  intro s x
  have hlen := regsUpTo_length x
  obtain ⟨t, hends, hregs, hframe⟩ :=
    s.loadRegs_spec s.i.toNat (List.ne_nil_of_length_eq_add_one hlen) (regsUpTo_nodup x)
  obtain ⟨w, hexec, hdone, hraised⟩ :=
    finishTransfer_spec hlen hends (hframe .i (by simp)) loadStoreIncrementsI
  refine ⟨_, hexec, fun j hj hja => ?_, hdone, hraised, ?_⟩
  · have hjl : j.val < (regsUpTo x).length := by
      rw [hlen]
      exact Nat.lt_succ_of_le hj
    have hget : (regsUpTo x)[j.val] = j := Fin.ext (regsUpTo_get x hjl)
    rw [State.reg_setI, ← hregs j.val hjl hja, hget]
  · refine (hframe.weaken ?_).trans ((frame_setI t w).weaken fun _ h => .inr (.inl h))
    rintro p (rfl | ⟨j, hj, hja, rfl⟩)
    · exact .inl rfl
    · refine .inr (.inr ⟨(regsUpTo x)[j], (mem_regsUpTo x _).1 (List.getElem_mem hj), ?_, rfl⟩)
      rw [regsUpTo_get x hj]
      exact hja

/-- Settles O32: the load reads back from each address the register that the store put there. -/
theorem dumpThenLoadRestores : Obligations.DumpThenLoadRestores := by
  unfold Obligations.DumpThenLoadRestores
  intro s x hin
  obtain ⟨t, hdump, hbytes, -⟩ := dumpStoresRegisters s x
  refine ⟨t, hdump, fun regs => ?_⟩
  obtain ⟨u, hload, hregs, -⟩ := loadFillsRegisters ({ t with v := regs }.setI s.i) x
  refine ⟨u, hload, fun j hj => ?_⟩
  have hja : s.i.toNat + j.val < 4096 := Nat.lt_of_le_of_lt (Nat.add_le_add_left hj _) hin
  exact (hregs j hj hja).trans (hbytes j hj hja)

/-- LD B is the common law for the three digits. -/
theorem exec_ldBVx_spec (s : State) (x : Reg) :
    ∃ t, exec (.ldBVx x) s = .next t ∧
      (s.i.toNat < 4096 → t.byte s.i.toNat = .ofNat 8 ((s.reg x).toNat / 100)) ∧
      (s.i.toNat + 1 < 4096 → t.byte (s.i.toNat + 1) = .ofNat 8 ((s.reg x).toNat / 10 % 10)) ∧
      (s.i.toNat + 2 < 4096 → t.byte (s.i.toNat + 2) = .ofNat 8 ((s.reg x).toNat % 10)) ∧
      (s.i.toNat + 2 < 4096 → t.mode = s.mode) ∧
      (4096 ≤ s.i.toNat + 2 → HaltedWith .outOfBounds s t) ∧
      Frame (fun p => p = .mode ∨ ∃ j, j < 3 ∧ s.i.toNat + j < 4096 ∧ p = .byte (s.i.toNat + j)) s t := by
  have hsize : memSize = 4096 := rfl
  have hlen : (bcdDigits (s.reg x)).length = 3 := rfl
  obtain ⟨t, hends, hbytes, hframe⟩ := s.writeBytes_spec s.i.toNat (List.ne_nil_of_length_eq_add_one hlen)
  refine ⟨t, ?_, hbytes 0 (by omega), hbytes 1 (by omega), hbytes 2 (by omega), ?_, ?_, hframe⟩
  all_goals rcases hends with ⟨hin, hr, hmode⟩ | ⟨hout, hr, hraise⟩
  · simp only [exec, execLdBVx, hr, endStep]
  · simp only [exec, execLdBVx, hr, endStep]
  · exact fun _ => hmode
  · exact fun h => by omega
  · exact fun h => by omega
  · exact fun _ => hraise

/-- Settles O29: the stored bytes are the digits, each below 256. -/
theorem bcdStoresDigits : Obligations.BcdStoresDigits := by
  unfold Obligations.BcdStoresDigits
  intro s x
  have hlt := (s.reg x).isLt
  obtain ⟨t, hexec, h0, h1, h2, hrest⟩ := exec_ldBVx_spec s x
  refine ⟨t, hexec, fun h => ?_, fun h => ?_, fun h => ?_, hrest⟩
  · rw [h0 h, BitVec.toNat_ofNat]
    omega
  · rw [h1 h, BitVec.toNat_ofNat]
    omega
  · rw [h2 h, BitVec.toNat_ofNat]
    omega

/-- The fetches that cover an address read the byte that stands there (20_memory.md R57, R67). -/
theorem fetches_of_byte {t : State} {a : Nat} {b : Byte} (h : t.byte a = b) : t.fetches a b := by
  have hlt := b.isLt
  constructor
  · intro ha
    refine ⟨_, State.fetchWord_inside t ha, ?_⟩
    have hlo := (t.byte (a + 1)).isLt
    rw [wordOf_toNat, h]
    omega
  · rintro p rfl ha
    refine ⟨_, State.fetchWord_inside t ha, ?_⟩
    rw [wordOf_toNat, h]
    omega

/-- Settles O14: FX55 and FX33 store the byte, and what a fetch reads is the byte that stands there. -/
theorem storedCodeIsFetchedNext : Obligations.StoredCodeIsFetchedNext := by
  unfold Obligations.StoredCodeIsFetchedNext
  refine fun s => ⟨fun x j hj hin => ?_, fun x hin => ?_⟩
  · obtain ⟨t, hexec, hbytes, -⟩ := dumpStoresRegisters s x
    have hja : s.i.toNat + j.val < 4096 := Nat.lt_of_le_of_lt (Nat.add_le_add_left hj _) hin
    exact ⟨t, hexec, fetches_of_byte (hbytes j hj hja)⟩
  · obtain ⟨t, hexec, h0, h1, h2, -⟩ := exec_ldBVx_spec s x
    exact ⟨t, hexec, fetches_of_byte (h0 (by omega)), fetches_of_byte (h1 (by omega)), fetches_of_byte (h2 hin)⟩

/-! ### Writes of I -/

theorem glyphAddress_toNat (b : Byte) : (glyphAddress b).toNat = fontBase + 5 * (b.toNat % 16) := by
  have hlow : (b &&& 0x0F).toNat = b.toNat % 16 := Nat.and_two_pow_sub_one_eq_mod b.toNat 4
  have hbase : fontBase = 0 := rfl
  have hglyph : glyphBytes = 5 := rfl
  rw [glyphAddress, hlow, hbase, hglyph, BitVec.toNat_ofNat]
  omega

/-- Settles O28: each of the three is one write of I. -/
theorem indexInstructionsWriteIOnly : Obligations.IndexInstructionsWriteIOnly := by
  unfold Obligations.IndexInstructionsWriteIOnly
  refine fun s x nnn => ⟨⟨_, rfl, zext16_toNat nnn, frame_setI s _⟩, ⟨_, rfl, ?_, frame_setI s _⟩,
    ⟨_, rfl, glyphAddress_toNat (s.reg x), frame_setI s _⟩⟩
  rw [State.setI_i, BitVec.toNat_add, byteToWord_toNat]

end Sys2Proof.Machine
end

section
/-! SUPPORT. SYS, RET, CALL and JP V0 (40_control_flow.md), and the skips (41_skips.md): an equation for each branch,
and the frames of the stack's two parts. -/

namespace Sys2Proof.Machine

open Sys2Proof.Config

section Stack

variable (s : State)

theorem frame_setSp (sp : Fin (stackDepth + 1)) : Frame (· = .sp) s { s with sp := sp } := by
  intro p hp
  cases p with
  | sp => exact absurd rfl hp
  | _ => rfl

theorem frame_setEntry (j : Fin stackDepth) (w : Word) :
    Frame (· = .entry j) s { s with stack := s.stack.set j w } := by
  intro p hp
  cases p with
  | entry k =>
    have hjk : j.val ≠ k.val := fun h => hp (congrArg Part.entry (Fin.ext h.symm))
    exact Vector.getElem_set_ne j.isLt k.isLt hjk
  | _ => rfl

theorem exec_ret_entry {j : Fin stackDepth} (h : s.sp.val = j.val + 1) :
    exec .ret s = .next ({ s with sp := ⟨j.val, Nat.lt_succ_of_lt j.isLt⟩ }.setPc s.stack[j]) := by
  simp only [exec, execRet, State.pop_entry s h, endStep]

theorem exec_ret_empty (h : s.sp.val = 0) : exec .ret s = .next (s.halt .capacityExceeded) := by
  simp only [exec, execRet, State.pop_empty s h, endStep]

theorem exec_call_room (nnn : Addr12) {j : Fin stackDepth} (h : s.sp.val = j.val) :
    exec (.call nnn) s = .next
      ({ s with stack := s.stack.set j s.pc, sp := ⟨j.val + 1, Nat.succ_lt_succ j.isLt⟩ }.setPc (zext16 nnn)) := by
  simp only [exec, execCall, State.push_room s s.pc h, endStep]

theorem exec_call_full (nnn : Addr12) (h : s.sp.val = stackDepth) :
    exec (.call nnn) s = .next (s.halt .capacityExceeded) := by
  simp only [exec, execCall, State.push_full s s.pc h, endStep]

end Stack

/-- Settles O15: SYS is a halt. -/
theorem sysHaltsAsIllegal : Obligations.SysHaltsAsIllegal := by
  unfold Obligations.SysHaltsAsIllegal
  exact fun s nnn => exists_haltedWith_frame rfl

/-- Settles O16: on a stack with an entry RET writes SP and then pc; on an empty one it is a halt. -/
theorem retPopsOrHalts : Obligations.RetPopsOrHalts := by
  unfold Obligations.RetPopsOrHalts
  refine fun s => ⟨fun j hj => ⟨_, exec_ret_entry s hj, rfl, rfl, ?_⟩,
    fun h0 => exists_haltedWith_frame (exec_ret_empty s h0)⟩
  exact ((frame_setSp s _).weaken fun _ => .inr).trans ((frame_setPc _ _).weaken fun _ => .inl)

/-- Settles O18: on a stack with room CALL writes the entry at SP, SP and then pc; on a full one it is a halt. -/
theorem callPushesOrHalts : Obligations.CallPushesOrHalts := by
  unfold Obligations.CallPushesOrHalts
  refine fun s nnn => ⟨fun j hj => ⟨_, exec_call_room s nnn hj, zext16_toNat nnn, rfl, Vector.getElem_set_self _, ?_⟩,
    fun hfull => exists_haltedWith_frame (exec_call_full s nnn hfull)⟩
  have hentry : Frame (fun p => p = .pc ∨ p = .sp ∨ p = .entry j) s { s with stack := s.stack.set j s.pc } :=
    (frame_setEntry s j s.pc).weaken fun _ h => .inr (.inr h)
  have hsp := hentry.trans ((frame_setSp _ ⟨j.val + 1, Nat.succ_lt_succ j.isLt⟩).weaken fun _ h => .inr (.inl h))
  exact hsp.trans ((frame_setPc _ _).weaken fun _ => .inl)

theorem jumpRegister_eq {nnn : Addr12} {x : Reg} (h : x.val = nnn.toNat / 0x100) : jumpRegister nnn = x := by
  have hlt := nnn.isLt
  apply Fin.ext
  simp only [jumpRegister, BitVec.val_toFin, BitVec.extractLsb'_toNat, Nat.shiftRight_eq_div_pow]
  omega

/-- Settles O19: JP V0 is one write of pc, with a sum that never wraps. -/
theorem jpV0AddsOffset : Obligations.JpV0AddsOffset := by
  unfold Obligations.JpV0AddsOffset
  refine fun s nnn x hx => ⟨_, rfl, ?_, frame_setPc s _⟩
  rw [State.setPc_pc, jumpTarget_toNat, jumpOffset, jumpRegister_eq hx]

/-! ### Skips -/

theorem State.skip_beq (s : State) (a b : Byte) :
    s.skip (a == b) = s.setPc (if a = b then s.pc + 2 else s.pc) := by
  rw [State.skip_eq]
  by_cases h : a = b <;> simp [h]

theorem State.skip_bne (s : State) (a b : Byte) :
    s.skip (a != b) = s.setPc (if a = b then s.pc else s.pc + 2) := by
  rw [State.skip_eq]
  by_cases h : a = b <;> simp [h]

/-- Settles O20: each skip is one write of pc. -/
theorem literalSkipsMovePcOnly : Obligations.LiteralSkipsMovePcOnly := by
  unfold Obligations.LiteralSkipsMovePcOnly
  exact fun s x nn => ⟨⟨_, congrArg Host.Outcome.next (s.skip_beq (s.reg x) nn), rfl, frame_setPc s _⟩,
    ⟨_, congrArg Host.Outcome.next (s.skip_bne (s.reg x) nn), rfl, frame_setPc s _⟩⟩

/-- Settles O21: each skip is one write of pc; with X = Y the registers agree. -/
theorem registerSkipsMovePcOnly : Obligations.RegisterSkipsMovePcOnly := by
  unfold Obligations.RegisterSkipsMovePcOnly
  refine fun s x y => ⟨⟨_, congrArg Host.Outcome.next (s.skip_beq (s.reg x) (s.reg y)), rfl, ?_, frame_setPc s _⟩,
    ⟨_, congrArg Host.Outcome.next (s.skip_bne (s.reg x) (s.reg y)), rfl, ?_, frame_setPc s _⟩⟩
  all_goals
    rintro rfl
    exact if_pos rfl

end Sys2Proof.Machine
end

section
/-! SUPPORT. Register arithmetic and logic (42_alu.md): a result with a flag written last, and the flags and results as
numbers. -/

namespace Sys2Proof.Machine

open Sys2Proof.Config

/-- Settles O23: each of the four is one write of V[X]. -/
theorem copyAndLogicWriteVxOnly : Obligations.CopyAndLogicWriteVxOnly := by
  unfold Obligations.CopyAndLogicWriteVxOnly
  refine fun s x y => ⟨⟨_, rfl, s.reg_setReg_same x _, frame_setReg s x _⟩,
    ⟨_, rfl, s.reg_setReg_same x _, ?_, frame_setReg s x _⟩, ⟨_, rfl, s.reg_setReg_same x _, ?_, frame_setReg s x _⟩,
    ⟨_, rfl, s.reg_setReg_same x _, ?_, frame_setReg s x _⟩⟩
  all_goals
    rintro rfl
    rw [State.reg_setReg_same]
  · exact BitVec.or_self
  · exact BitVec.and_self
  · exact BitVec.xor_self

/-! ### A result and a flag -/

section ResultAndFlag

variable (s : State) (x : Reg) (result flag : Byte)

/-- VF holds the flag, whatever the destination (42_alu.md R140). -/
theorem reg_vf_setRegFlag : (s.setRegFlag x result flag).reg 15 = flag := State.reg_setReg_same _ _ _

theorem reg_setRegFlag_of_ne_vf (hx : x ≠ 15) : (s.setRegFlag x result flag).reg x = result := by
  have hvf : vf ≠ x := fun h => hx h.symm
  rw [State.setRegFlag, State.reg_setReg, if_neg hvf, State.reg_setReg_same]

theorem frame_setRegFlag : Frame (fun p => p = .reg x ∨ p = .reg 15) s (s.setRegFlag x result flag) :=
  ((frame_setReg s x result).weaken fun _ => .inl).trans ((frame_setReg _ vf flag).weaken fun _ => .inr)

end ResultAndFlag

/-- What the six flag writers but DRW have in common: the result's number in V[X] unless X = F, the flag in VF, nothing
else. -/
theorem next_setRegFlag_spec (s : State) (x : Reg) (result flag : Byte) {o : Host.Outcome State Fault Refusal}
    (ho : o = .next (s.setRegFlag x result flag)) {n : Nat} (hn : result.toNat = n) :
    ∃ t, o = .next t ∧ (x ≠ 15 → (t.reg x).toNat = n) ∧ t.reg 15 = flag ∧
      Frame (fun p => p = .reg x ∨ p = .reg 15) s t :=
  ⟨_, ho, fun hx => by rw [reg_setRegFlag_of_ne_vf s x result flag hx, hn], reg_vf_setRegFlag s x result flag,
    frame_setRegFlag s x result flag⟩

theorem flag_decide (p : Prop) [Decidable p] : flag (decide p) = if p then 1 else 0 := by
  simp only [flag, decide_eq_true_eq]

theorem byte_sub_toNat (a b : Byte) : (a - b).toNat = (a.toNat + 256 - b.toNat) % 256 := by bv_omega

/-- Settles O24: the sum wraps at 256, and the flag says that it passed 255. -/
theorem addSetsCarry : Obligations.AddSetsCarry := by
  unfold Obligations.AddSetsCarry
  intro s x y
  rw [← flag_decide]
  exact next_setRegFlag_spec s x _ _ rfl (BitVec.toNat_add _ _)

/-- Settles O25: the difference wraps at 256, and the flag says that the subtrahend was not the greater. -/
theorem subtractSetsNotBorrow : Obligations.SubtractSetsNotBorrow := by
  unfold Obligations.SubtractSetsNotBorrow
  intro s x y
  rw [← flag_decide, ← flag_decide]
  exact ⟨next_setRegFlag_spec s x _ _ rfl (byte_sub_toNat _ _), next_setRegFlag_spec s x _ _ rfl (byte_sub_toNat _ _)⟩

theorem byte_and_one_toNat (b : Byte) : (b &&& 1).toNat = b.toNat % 2 := Nat.and_one_is_mod b.toNat

theorem shrFlag_toNat (src : Byte) : (shrFlag src).toNat = src.toNat % 2 := byte_and_one_toNat src

theorem shlFlag_toNat (src : Byte) : (shlFlag src).toNat = src.toNat / 128 := by
  have hlt := src.isLt
  rw [shlFlag, byte_and_one_toNat, BitVec.toNat_ushiftRight, Nat.shiftRight_eq_div_pow]
  omega

theorem byte_shiftRight_one_toNat (src : Byte) : (src >>> 1).toNat = src.toNat / 2 := by
  rw [BitVec.toNat_ushiftRight, Nat.shiftRight_eq_div_pow]

theorem byte_shiftLeft_one_toNat (src : Byte) : (src <<< 1).toNat = src.toNat * 2 % 256 := by
  rw [BitVec.toNat_shiftLeft, Nat.shiftLeft_eq]

/-- Settles O26: a shift by one bit halves or doubles modulo 256, and the flag is the lowest or the highest bit. -/
theorem shiftsSetBitShiftedOut : Obligations.ShiftsSetBitShiftedOut := by
  unfold Obligations.ShiftsSetBitShiftedOut
  intro s x y src hsrc
  obtain rfl : src = shiftSource shiftSourceVY x y s := hsrc
  obtain ⟨t, ht, hresult, hflag, hframe⟩ :=
    next_setRegFlag_spec s x _ _ (o := exec (.shr x y) s) rfl (byte_shiftRight_one_toNat _)
  obtain ⟨u, hu, hresult', hflag', hframe'⟩ :=
    next_setRegFlag_spec s x _ _ (o := exec (.shl x y) s) rfl (byte_shiftLeft_one_toNat _)
  exact ⟨⟨t, ht, hresult, by rw [hflag, shrFlag_toNat], hframe⟩,
    ⟨u, hu, hresult', by rw [hflag', shlFlag_toNat], hframe'⟩⟩

theorem frame_setDraws (s : State) (n : Nat) : Frame (· = .draws) s { s with draws := n } := by
  intro p hp
  cases p with
  | draws => exact absurd rfl hp
  | _ => rfl

/-- Settles O27: RND is one write of V[X] with the masked draw and one of the count of draws. -/
theorem rndMasksAFreshByte : Obligations.RndMasksAFreshByte := by
  unfold Obligations.RndMasksAFreshByte
  refine fun s x nn => ⟨_, rfl, s.reg_setReg_same x _, ?_, rfl, ?_⟩
  · rintro rfl
    exact (s.reg_setReg_same x _).trans BitVec.and_zero
  · exact ((frame_setReg s x _).weaken fun _ => .inl).trans ((frame_setDraws _ _).weaken fun _ => .inr)

end Sys2Proof.Machine
end

section
/-! SUPPORT. DRW and the screen engine (44_display.md R201, R203, R204): the covered pixels as a sprite's 1 bits, and
the draw as an exact XOR on them. -/

namespace Sys2Proof.Machine

open Sys2Proof.Config

/-! ### The covered pixels -/

/-- The pixels that a sprite of `n` rows `row 0` to `row (n - 1)` covers. -/
theorem mem_spritePixels_map_range (x y n : Nat) (row : Nat → Byte) (px : Fin screenW) (py : Fin screenH) :
    (px, py) ∈ spritePixels x y ((List.range n).map row) ↔
      ∃ r col, r < n ∧ col < 8 ∧ (row r).getLsbD (7 - col) = true ∧
        px.val = (x + col) % 64 ∧ py.val = (y + r) % 32 := by
  rw [mem_spritePixels]
  constructor
  · rintro ⟨r, col, hr, hcol, hbit, hx, hy⟩
    exact ⟨r, col, by simpa using hr, hcol, by simpa using hbit, hx, hy⟩
  · rintro ⟨r, col, hr, hcol, hbit, hx, hy⟩
    exact ⟨r, col, by simpa using hr, hcol, by simpa using hbit, hx, hy⟩

theorem exists_bit_of_ne_zero {b : Byte} (h : b ≠ 0) : ∃ k, k < 8 ∧ b.getLsbD k = true := by
  by_contra hnone
  refine h (BitVec.eq_of_getLsbD_eq fun k hk => ?_)
  have hbit : b.getLsbD k ≠ true := fun hb => hnone ⟨k, hk, hb⟩
  rw [Bool.eq_false_of_not_eq_true hbit]
  exact BitVec.getLsbD_zero.symm

/-- A sprite covers some pixel exactly when its rows hold a 1 bit. -/
theorem exists_mem_spritePixels_iff (x y : Nat) (rows : List Byte) :
    (∃ q, q ∈ spritePixels x y rows) ↔ ∃ b ∈ rows, b ≠ 0 := by
  constructor
  · rintro ⟨⟨px, py⟩, hq⟩
    obtain ⟨r, col, hr, -, hbit, -⟩ := (mem_spritePixels x y rows px py).1 hq
    refine ⟨rows[r], List.getElem_mem hr, fun hzero => ?_⟩
    simp [hzero] at hbit
  · rintro ⟨b, hb, hne⟩
    obtain ⟨r, hr, rfl⟩ := List.mem_iff_getElem.1 hb
    obtain ⟨k, hk, hbit⟩ := exists_bit_of_ne_zero hne
    have hcol : 7 - (7 - k) = k := by omega
    exact ⟨(Fin.ofNat 64 (x + (7 - k)), Fin.ofNat 32 (y + r)),
      (mem_spritePixels x y rows _ _).2 ⟨r, 7 - k, hr, by omega, by rw [hcol, hbit], rfl, rfl⟩⟩

/-! ### The draw -/

section Draw

variable {x y : Nat} {rows : List Byte} (hrows : rows.length ≤ 32) (p : Screen)

include hrows

theorem pixel_drawSprite_covered {px : Fin screenW} {py : Fin screenH} (h : (px, py) ∈ spritePixels x y rows) :
    Screen.pixel (drawSprite x y rows p).1 px py = !Screen.pixel p px py := by
  rw [(drawSprite_spec x y rows hrows p).1, if_pos h]

theorem pixel_drawSprite_other {px : Fin screenW} {py : Fin screenH} (h : (px, py) ∉ spritePixels x y rows) :
    Screen.pixel (drawSprite x y rows p).1 px py = Screen.pixel p px py := by
  rw [(drawSprite_spec x y rows hrows p).1, if_neg h]

theorem collision_iff :
    (drawSprite x y rows p).2 = true ↔ ∃ px py, (px, py) ∈ spritePixels x y rows ∧ Screen.pixel p px py = true := by
  rw [(drawSprite_spec x y rows hrows p).2, List.any_eq_true, Prod.exists]

theorem drawSprite_twice : (drawSprite x y rows (drawSprite x y rows p).1).1 = p := by
  refine Screen.ext_pixel fun px py => ?_
  by_cases h : (px, py) ∈ spritePixels x y rows
  · rw [pixel_drawSprite_covered hrows _ h, pixel_drawSprite_covered hrows p h, Bool.not_not]
  · rw [pixel_drawSprite_other hrows _ h, pixel_drawSprite_other hrows p h]

/-- The second of two equal draws collides exactly when the first set some pixel. -/
theorem second_collision_iff :
    (drawSprite x y rows (drawSprite x y rows p).1).2 = true ↔
      ∃ px py, Screen.pixel p px py = false ∧ Screen.pixel (drawSprite x y rows p).1 px py = true := by
  rw [collision_iff hrows]
  constructor
  · rintro ⟨px, py, hcovered, hset⟩
    rw [pixel_drawSprite_covered hrows p hcovered] at hset
    exact ⟨px, py, by simpa using hset, by rw [pixel_drawSprite_covered hrows p hcovered, hset]⟩
  · rintro ⟨px, py, hunset, hset⟩
    refine ⟨px, py, ?_, hset⟩
    by_contra hother
    rw [pixel_drawSprite_other hrows p hother, hunset] at hset
    cases hset

/-- On a clear screen the first draw sets exactly the covered pixels. -/
theorem second_collision_iff_of_clear (hclear : ∀ px py, Screen.pixel p px py = false) :
    (drawSprite x y rows (drawSprite x y rows p).1).2 = true ↔ ∃ b ∈ rows, b ≠ 0 := by
  rw [collision_iff hrows, ← exists_mem_spritePixels_iff x y rows, Prod.exists]
  refine exists_congr fun px => exists_congr fun py => and_iff_left_of_imp fun hcovered => ?_
  rw [pixel_drawSprite_covered hrows p hcovered, hclear]
  rfl

end Draw

/-- Settles O36: XOR twice is the identity, and the second collision is a pixel that the first draw set. -/
theorem drawingTwiceRestoresTheScreen : Obligations.DrawingTwiceRestoresTheScreen := by
  unfold Obligations.DrawingTwiceRestoresTheScreen
  intro p x y rows hlen
  have hrows : rows.length ≤ 32 := by omega
  exact ⟨drawSprite_twice hrows p, second_collision_iff hrows p, second_collision_iff_of_clear hrows p⟩

/-- Refutes O37: on a screen with pixel (0, 0) set, the first draw of the row 0x80 at (0, 0) unsets it and the second
sets it again, which is no collision, though the row holds a 1 bit. -/
theorem not_secondDrawCollidesOnEveryScreen : ¬ Obligations.SecondDrawCollidesOnEveryScreen := by
  unfold Obligations.SecondDrawCollidesOnEveryScreen
  intro h
  have hcollides := (h (Screen.setPixel Screen.clear 0 0 true) 0 0 [0x80] (by decide)).2 ⟨0x80, by decide, by decide⟩
  exact absurd hcollides (by decide)

/-! ### DRW -/

/-- The rows that DRW reads from I. -/
def State.spriteRows (s : State) (n : Fin 16) : List Byte := (List.range n.val).map (fun r => s.byte (s.i.toNat + r))

theorem State.spriteRows_length (s : State) (n : Fin 16) : (s.spriteRows n).length = n.val := by
  rw [State.spriteRows, List.length_map, List.length_range]

theorem exec_drw_inside (s : State) (x y : Reg) {n : Fin 16} (h : ∀ r, r < n.val → s.i.toNat + r < 4096) :
    exec (.drw x y n) s = .next (s.drawRows (s.reg x).toNat (s.reg y).toNat (s.spriteRows n)) := by
  have hin : n.val = 0 ∨ s.i.toNat + n.val ≤ memSize := by
    have hlast := h (n.val - 1)
    have hsize : memSize = 4096 := rfl
    omega
  simp only [exec, execDrw, State.readBytes_inside s hin, endStep, State.spriteRows]

theorem exec_drw_outside (s : State) (x y : Reg) {n : Fin 16} {r : Nat} (hr : r < n.val) (h : 4096 ≤ s.i.toNat + r) :
    exec (.drw x y n) s = .next (s.halt .outOfBounds) := by
  have hout : memSize < s.i.toNat + n.val := by
    have hsize : memSize = 4096 := rfl
    omega
  simp only [exec, execDrw, State.readBytes_outside s (Nat.zero_lt_of_lt hr) hout, endStep]

/-- Drawing touches the covered pixels and VF alone. -/
theorem frame_drawRows (s : State) {x y : Nat} {rows : List Byte} (hrows : rows.length ≤ 32) :
    Frame (fun p => p = .reg 15 ∨ ∃ px py, (px, py) ∈ spritePixels x y rows ∧ p = .pixel px py) s
      (s.drawRows x y rows) := by
  refine (frame_setPix s (drawSprite x y rows s.pix).1 _ fun px py hout => ?_).trans
    ((frame_setReg _ vf _).weaken fun _ => .inl)
  exact pixel_drawSprite_other hrows s.pix fun hcovered => hout (.inr ⟨px, py, hcovered, rfl⟩)

/-- Settles O34: with all rows inside memory DRW draws the rows at I, which XORs the covered pixels, and puts the
collision in VF. -/
theorem drwXorsTheSprite : Obligations.DrwXorsTheSprite := by
  unfold Obligations.DrwXorsTheSprite
  intro s x y n covered hcovered hin
  have hrows : (s.spriteRows n).length ≤ 32 := by
    rw [State.spriteRows_length]
    omega
  have hmem (px : Fin 64) (py : Fin 32) :
      covered px py ↔ (px, py) ∈ spritePixels (s.reg x).toNat (s.reg y).toNat (s.spriteRows n) :=
    (hcovered px py).trans (mem_spritePixels_map_range _ _ _ _ px py).symm
  have hvf : (s.drawRows (s.reg x).toNat (s.reg y).toNat (s.spriteRows n)).reg 15 =
      flag (drawSprite (s.reg x).toNat (s.reg y).toNat (s.spriteRows n) s.pix).2 := State.reg_setReg_same _ vf _
  refine ⟨_, exec_drw_inside s x y hin, fun px py h => pixel_drawSprite_covered hrows s.pix ((hmem px py).1 h), ?_, ?_,
    ?_⟩
  · rintro ⟨px, py, h, hset⟩
    rw [hvf, (collision_iff hrows s.pix).2 ⟨px, py, (hmem px py).1 h, hset⟩]
    rfl
  · intro hunset
    have hnone : (drawSprite (s.reg x).toNat (s.reg y).toNat (s.spriteRows n) s.pix).2 = false := by
      refine Bool.eq_false_of_not_eq_true fun hcollides => ?_
      obtain ⟨px, py, h, hset⟩ := (collision_iff hrows s.pix).1 hcollides
      rw [hunset px py ((hmem px py).2 h)] at hset
      cases hset
    rw [hvf, hnone]
    rfl
  · refine (frame_drawRows s hrows).weaken ?_
    rintro p (rfl | ⟨px, py, h, rfl⟩)
    · exact .inl rfl
    · exact .inr ⟨px, py, (hmem px py).2 h, rfl⟩

/-- Settles O35: the rows are read before anything is drawn, so a row outside memory is a halt alone. -/
theorem drwOutOfBoundsDrawsNothing : Obligations.DrwOutOfBoundsDrawsNothing := by
  unfold Obligations.DrwOutOfBoundsDrawsNothing
  exact fun s x y n r hr hout => exists_haltedWith_frame (exec_drw_outside s x y hr hout)

/-- Settles O47: a pixel is read at both coordinates wrapped. -/
theorem isSetReadsTheWrappedPixel : Obligations.IsSetReadsTheWrappedPixel := by
  unfold Obligations.IsSetReadsTheWrappedPixel
  intro s x y px py hx hy
  obtain rfl : px = Fin.ofNat screenW x := Fin.ext hx
  obtain rfl : py = Fin.ofNat screenH y := Fin.ext hy
  rfl

end Sys2Proof.Machine
end

section
/-! SUPPORT. The cycle and the idle modes (30_encoding.md R70; 45_keyboard_timers.md R227; 60_exceptions.md R252 to
R254): an equation for each branch, and the state that `withFetchWord` makes (log 24). -/

namespace Sys2Proof.Machine

open Sys2Proof.Config

/-! ### The branches of a cycle -/

theorem executeNext_of_halted {s : State} {k : ErrorKind} (hm : s.mode = .halted k) : executeNext s = .next s := by
  simp only [executeNext, hm]

theorem executeNext_of_waiting {s : State} {x : Reg} (hm : s.mode = .waitingForKey x) : executeNext s = .next s := by
  simp only [executeNext, hm]

theorem executeNext_of_undefined {s : State} {w : Word} {e : DecodeReject} (hm : s.mode = .ready)
    (hw : s.fetchWord s.pc.toNat = .ok w) (he : decodeWord w = .error e) :
    executeNext s = .next ((s.setPc (s.pc + 2)).halt .illegalInstruction) := by
  simp only [executeNext, hm, runNext, hw, runWord, he, endStep, instrLength_eq]

theorem State.unhalted_of_ready {s : State} (hm : s.mode = .ready) : ∀ k, s.mode ≠ .halted k := by
  rw [hm]
  exact nofun

theorem perform_executeNext {s t : State} (h : executeNext s = .next t) :
    perform .executeNext s = .next ⟨t, modeReply t.mode⟩ := by
  simp only [perform, callExecuteNext, h]

/-- A step whose host call is `execute_next()` is a cycle. -/
theorem step_of_executeNext {s : State} (h : s.nextCall = .executeNext) : step s = executeNext s.dropCall := by
  simp only [step, hostStep, h, perform, callExecuteNext]
  cases executeNext s.dropCall <;> rfl

/-- Settles O10: each of the two errors is a halt, of the state fetched in or of the state past the word. -/
theorem fetchAndDecodeErrorsHalt : Obligations.FetchAndDecodeErrorsHalt := by
  unfold Obligations.FetchAndDecodeErrorsHalt
  refine fun s hm => ⟨fun hpc => ⟨_, executeNext_of_fetch_outside hm hpc, ?_, frame_halt s _⟩,
    fun w e hw he => ⟨_, executeNext_of_undefined hm hw he, ?_, State.halt_pc _ _, ?_⟩⟩
  · exact State.halt_mode_of_unhalted s _ (State.unhalted_of_ready hm)
  · exact State.halt_mode_of_unhalted (s.setPc _) _ (State.unhalted_of_ready hm)
  · exact ((frame_setPc s _).weaken fun _ => .inr).trans ((frame_halt _ _).weaken fun _ => .inl)

/-- Settles O11: an idle cycle leaves the state, and the reply is read off the mode. -/
theorem idleModesDoNothing : Obligations.IdleModesDoNothing := by
  unfold Obligations.IdleModesDoNothing
  refine fun s => ⟨fun x hm => ?_, fun k hm => ?_⟩
  · rw [perform_executeNext (executeNext_of_waiting hm), hm, modeReply]
  · rw [perform_executeNext (executeNext_of_halted hm), hm, modeReply]

/-- Settles O60: in Halted a cycle is idle, and a jump to its own address undoes the advance of pc. -/
theorem endedRunsStayEnded : Obligations.EndedRunsStayEnded := by
  unfold Obligations.EndedRunsStayEnded
  rintro s (⟨k, hm⟩ | ⟨hm, w, nnn, hw, hi, hpc⟩)
  · exact executeNext_of_halted hm
  · exact executeNext_jp_self hm hw hi hpc

/-! ### The step that runs a word -/

/-- Settles O7: with `execute_next()` next, a step is a cycle, and in Ready the cycle runs the decoded instruction. -/
theorem stepRunsDecodedInstruction : Obligations.StepRunsDecodedInstruction := by
  unfold Obligations.StepRunsDecodedInstruction
  intro s i rest hm hcall hpc hdec
  rw [step_of_executeNext hcall]
  exact executeNext_of_decoded (s := s.dropCall) hm (State.fetchWord_inside s.dropCall hpc)
    (decode_cons_eq_ok_iff.1 hdec).1

theorem decodeWord_of_decodeTableWord {n w : Nat} {i : Instr} (h : decodeTableWord n w = some i) :
    decodeWord (tableWord n w) = .ok i := by
  rw [decodeTableWord, wordBytes, decode_cons, wordOf_bytes] at h
  cases hd : decodeWord (tableWord n w) with
  | error e => simp [hd, Except.map] at h
  | ok j => simpa [hd, Except.map] using h

theorem fetchPlace_inside (pc : Word) : (fetchPlace pc).toNat + 1 < memSize := by
  unfold fetchPlace
  split
  · assumption
  · decide

theorem placeWord_nextCall (s : State) (w : Word) : (placeWord s w).nextCall = .executeNext := by
  show (executeFirst s.hostCalls).headD .executeNext = .executeNext
  unfold executeFirst
  split <;> rfl

theorem placeWord_fetchWord (s : State) (w : Word) :
    (placeWord s w).dropCall.fetchWord (fetchPlace s.pc).toNat = .ok w := by
  have hhi : (placeWord s w).dropCall.byte (fetchPlace s.pc).toNat = highByte w :=
    Memory.read_writeList_getElem s.mem _ (bytes := wordBytes w) (j := 0) Nat.zero_lt_two
  have hlo : (placeWord s w).dropCall.byte ((fetchPlace s.pc).toNat + 1) = lowByte w :=
    Memory.read_writeList_getElem s.mem _ (bytes := wordBytes w) (j := 1) Nat.one_lt_two
  rw [State.fetchWord_inside _ (fetchPlace_inside s.pc), hhi, hlo, wordOf_bytes]

/-- Settles O8: the placed state is in Ready with `execute_next()` next and the word at pc. -/
theorem placedWordRunsNext : Obligations.PlacedWordRunsNext := by
  unfold Obligations.PlacedWordRunsNext
  intro s w i hdec
  rw [State.withFetchWord, step_of_executeNext (placeWord_nextCall s (tableWord 16 w))]
  exact executeNext_of_decoded (s := (placeWord s (tableWord 16 w)).dropCall) rfl
    (placeWord_fetchWord s (tableWord 16 w)) (decodeWord_of_decodeTableWord hdec)

/-- Settles O49: reset leaves the host's list empty, so the first step is a cycle at 0x200. -/
theorem firstFetchIsAtTheLoadAddress : Obligations.FirstFetchIsAtTheLoadAddress := by
  unfold Obligations.FirstFetchIsAtTheLoadAddress
  refine ⟨rfl, rfl, fun m w i hw hdec => ?_⟩
  have hfetch : (State.reset.setMem m).fetchWord 0x200 = .ok w :=
    (State.fetchWord_inside _ (by decide)).trans (congrArg Except.ok (eq_wordOf_iff.2 hw).symm)
  rw [step_of_executeNext rfl]
  exact executeNext_of_decoded (s := State.reset.setMem m) rfl hfetch hdec

end Sys2Proof.Machine
end

section
/-! SUPPORT. Keys and timers (45_keyboard_timers.md): the instructions and the host calls over them. -/

namespace Sys2Proof.Machine

open Sys2Proof.Config

/-! ### The instructions -/

section KeySkips

variable (s : State) (x : Reg)

theorem exec_skp_key {k : Key} (hk : (s.reg x).toNat = k.val) :
    exec (.skp x) s = .next (s.setPc (if s.keyDown k then s.pc + 2 else s.pc)) := by
  simp only [exec, execSkp, hk, State.keyIndex_key, endStep, State.skip_eq]

theorem exec_sknp_key {k : Key} (hk : (s.reg x).toNat = k.val) :
    exec (.sknp x) s = .next (s.setPc (if s.keyDown k then s.pc else s.pc + 2)) := by
  simp only [exec, execSknp, hk, State.keyIndex_key, endStep, State.skip_eq]
  cases s.keyDown k <;> rfl

theorem exec_skp_invalid (h : numKeys ≤ (s.reg x).toNat) : exec (.skp x) s = .next (s.halt .invalidKey) := by
  simp only [exec, execSkp, State.keyIndex_invalid s h, endStep]

theorem exec_sknp_invalid (h : numKeys ≤ (s.reg x).toNat) : exec (.sknp x) s = .next (s.halt .invalidKey) := by
  simp only [exec, execSknp, State.keyIndex_invalid s h, endStep]

end KeySkips

/-- Settles O38: with a key index each skip is one write of pc, with a higher one a halt. -/
theorem keySkipsTestTheKey : Obligations.KeySkipsTestTheKey := by
  unfold Obligations.KeySkipsTestTheKey
  exact fun s x => ⟨fun k hk => ⟨⟨_, exec_skp_key s x hk, rfl, frame_setPc s _⟩,
      ⟨_, exec_sknp_key s x hk, rfl, frame_setPc s _⟩⟩,
    fun h => ⟨exists_haltedWith_frame (exec_skp_invalid s x h), exists_haltedWith_frame (exec_sknp_invalid s x h)⟩⟩

/-- Settles O39: each move is one write of its destination. -/
theorem timerMovesCopy : Obligations.TimerMovesCopy := by
  unfold Obligations.TimerMovesCopy
  exact fun s x => ⟨⟨_, rfl, s.reg_setReg_same x _, frame_setReg s x _⟩, ⟨_, rfl, rfl, frame_setDt s _⟩,
    ⟨_, rfl, rfl, frame_setSt s _⟩⟩

/-- Settles O40: LD VX, K is one write of pc and one of the mode. -/
theorem keyWaitStepsBackAndWaits : Obligations.KeyWaitStepsBackAndWaits := by
  unfold Obligations.KeyWaitStepsBackAndWaits
  exact fun s x => ⟨_, rfl, rfl, rfl,
    ((frame_setPc s _).weaken fun _ => .inl).trans ((frame_setMode _ _).weaken fun _ => .inr)⟩

/-! ### The key wait -/

theorem State.setMode_of_mode {s : State} {m : Mode} (h : s.mode = m) : s.setMode m = s := by
  subst h
  rfl

/-- The cycle of an FX0A moves pc on and back, so that only the mode changes. -/
theorem executeNext_ldVxK {s : State} {w : Word} {x : Reg} (hm : s.mode = .ready)
    (hw : s.fetchWord s.pc.toNat = .ok w) (hi : decodeWord w = .ok (.ldVxK x)) :
    executeNext s = .next (s.setMode (.waitingForKey x)) := by
  have hback : s.pc + 2 - 2 = s.pc := BitVec.add_sub_cancel _ _
  rw [executeNext_of_decoded hm hw hi]
  show Host.Outcome.next (((s.setPc (s.pc + 2)).setPc (s.pc + 2 - 2)).setMode (.waitingForKey x)) = _
  rw [hback]
  rfl

/-- The state after a wait that began in the ready state `s` was ended by a press of `k`. -/
def State.afterWait (s : State) (x : Reg) (k : Key) : State :=
  ((s.setKey k true).setReg x (.ofNat 8 k.val)).setPc (s.pc + 2)

theorem press_ends_wait {s : State} (hm : s.mode = .ready) (x : Reg) (k : Key) :
    perform (.press k.val) (s.setMode (.waitingForKey x)) = .next ⟨s.afterWait x k, .ok⟩ := by
  rw [perform, callPress_key, State.endWait_of_waiting _ k (x := x) rfl]
  exact congrArg (fun u => (.next ⟨u, .ok⟩ : Host.Outcome Answer Fault Refusal))
    (State.setMode_of_mode (s := s.afterWait x k) hm)

theorem frame_afterWait (s : State) (x : Reg) (k : Key) :
    Frame (fun p => p = .reg x ∨ p = .pc ∨ p = .key k) s (s.afterWait x k) := by
  have hkey := (frame_setKey s k true).weaken (g := fun p => p = .reg x ∨ p = .pc ∨ p = .key k) fun _ h => .inr (.inr h)
  exact (hkey.trans ((frame_setReg _ x _).weaken fun _ => .inl)).trans
    ((frame_setPc _ _).weaken fun _ h => .inr (.inl h))

/-- Settles O41: the wait begins with a write of the mode alone, is idle, and ends with the press. -/
theorem keyWaitEndsWithThePress : Obligations.KeyWaitEndsWithThePress := by
  unfold Obligations.KeyWaitEndsWithThePress
  intro s x w k hm hw hi
  refine ⟨_, s.afterWait x k, executeNext_ldVxK hm hw hi, rfl, rfl, frame_setMode s _, executeNext_of_waiting rfl,
    press_ends_wait hm x k, ?_, rfl, hm, ?_, frame_afterWait s x k⟩
  · have hreg : (s.afterWait x k).reg x = .ofNat 8 k.val := State.reg_setReg_same _ x _
    have hk : k.val < 16 := k.isLt
    rw [hreg, BitVec.toNat_ofNat]
    omega
  · exact (s.keyDown_setKey k k true).trans (if_pos rfl)

/-! ### The host calls -/

theorem State.keyDown_setKey_same (s : State) (k : Key) (b : Bool) : (s.setKey k b).keyDown k = b := by
  rw [State.keyDown_setKey, if_pos rfl]

/-- Settles O42: with a key index each call is at most one write of that key, with a higher one a halt. -/
theorem keyCallsActOnOneKey : Obligations.KeyCallsActOnOneKey := by
  unfold Obligations.KeyCallsActOnOneKey
  refine fun s => ⟨fun k => ⟨fun hnw => ⟨s.setKey k true, ?_, s.keyDown_setKey_same k true, frame_setKey s k true⟩,
    ⟨_, congrArg Host.Outcome.next (callRelease_key s k), s.keyDown_setKey_same k false, frame_setKey s k false⟩,
    congrArg Host.Outcome.next (callIsDown_key s k)⟩, fun k c hk hc => exists_haltedWith_frame ?_⟩
  · rw [perform, callPress_key, State.endWait_of_not_waiting (s.setKey k true) k hnw]
  · simp only [List.mem_cons, List.not_mem_nil, or_false] at hc
    rcases hc with rfl | rfl | rfl
    · exact congrArg Host.Outcome.next (callPress_invalid s hk)
    · exact congrArg Host.Outcome.next (callRelease_invalid s hk)
    · exact congrArg Host.Outcome.next (callIsDown_invalid s hk)

theorem tickDown_toNat (b : Byte) : (tickDown b).toNat = b.toNat - 1 := by
  unfold tickDown
  split <;> bv_omega

/-- Settles O43: a tick is one write of each timer. -/
theorem tickCountsEachTimerDown : Obligations.TickCountsEachTimerDown := by
  unfold Obligations.TickCountsEachTimerDown
  exact fun s => ⟨_, rfl, tickDown_toNat s.dt, tickDown_toNat s.st,
    ((frame_setDt s _).weaken fun _ => .inl).trans ((frame_setSt _ _).weaken fun _ => .inr)⟩

end Sys2Proof.Machine
end

section
/-! SUPPORT. `load`, `bind`, `map` and the reset (20_memory.md R58; 45_keyboard_timers.md R236, R237;
70_reset_and_hazards.md R280). -/

namespace Sys2Proof.Machine

open Sys2Proof.Config

/-- Settles O44: a program that fits is one store of its bytes from 0x200 on, a larger one a halt. -/
theorem loadCopiesOrHalts : Obligations.LoadCopiesOrHalts := by
  unfold Obligations.LoadCopiesOrHalts
  intro s bytes n
  have hsize : memSize = 4096 := rfl
  have hload : loadAddr = 0x200 := rfl
  refine ⟨fun hn hlen => ?_, fun hn => exists_haltedWith_frame (callLoad_tooLarge s bytes (by omega))⟩
  have htake : (bytes.take n).length = n := by rw [List.length_take, Nat.min_eq_left hlen]
  refine ⟨_, callLoad_fits s (by omega) hlen, fun j b hj hb => ?_, fun a _ ha => ?_, ?_⟩
  · have hjt : j < (bytes.take n).length := htake.symm ▸ hj
    obtain ⟨_, hget⟩ := List.getElem?_eq_some_iff.1 hb
    exact (Memory.read_writeList_getElem s.mem loadAddr hjt).trans (List.getElem_take.trans hget)
  · have hhi : reservedHi = 0x1FF := rfl
    exact Memory.read_writeList_other fun j _ => by omega
  · have hframe := frame_setMem_writeList s loadAddr (bytes.take n)
    rw [htake] at hframe
    exact hframe

theorem frame_setBinding (s : State) (table : Binding) : Frame (· = .binding) s { s with binding := table } := by
  intro p hp
  cases p with
  | binding => exact absurd rfl hp
  | _ => rfl

theorem HostKeys.perform_mapCall {H : Type} (host : HostKeys H) {s : State} {h : H} {r : Option Key}
    (hr : Binding.lookup s.binding (host.name h) = r) :
    perform (host.mapCall h) s = .next ⟨s, .logicalKey r⟩ := by
  subst hr
  rfl

/-- Settles O46: the names of an injective map are an injective map; put in order it lists the same bindings, and a
lookup finds what is listed. -/
theorem bindReplacesAndMapLooksUp : Obligations.BindReplacesAndMapLooksUp := by
  unfold Obligations.BindReplacesAndMapLooksUp
  intro H host s table h1 h2
  have hinj := host.isInjectiveMap h1 h2
  refine ⟨_, callBind_map s hinj, frame_setBinding s _, fun h => ⟨fun k hk => ?_, fun hnone => ?_⟩⟩
  · have hlookup := Binding.lookup_mem (Binding.wf_sorted hinj)
      ((Binding.mem_sorted _ _).2 ((host.mem_names table h k).2 hk))
    exact host.perform_mapCall hlookup
  · have hlookup := Binding.lookup_not_mem (t := Binding.sorted _) (hk := host.name h) fun k hk =>
      hnone k ((host.mem_names table h k).1 ((Binding.mem_sorted _ _).1 hk))
    exact host.perform_mapCall hlookup

/-- What an address holds when nothing has written it: the font, and zero past its end. -/
theorem background_eq (a : Nat) : Memory.background a = font.getD a 0 := if_pos (Nat.zero_le a)

theorem background_past_font {a : Nat} (h : 80 ≤ a) : Memory.background a = 0 := by
  rw [background_eq, List.getD_eq_default _ _ (by rw [font_length]; exact h)]

/-- Settles O48: field by field, the reset state's constants, and the font where memory lists nothing. -/
theorem initializeRestoresTheResetState : Obligations.InitializeRestoresTheResetState := by
  unfold Obligations.InitializeRestoresTheResetState
  intro s
  refine ⟨_, rfl, fun g r => background_eq _, fun a ha => background_past_font ha, fun x => ?_, rfl, rfl, rfl,
    fun j => ?_, rfl, rfl, fun k => ?_, Screen.pixel_clear, rfl, rfl⟩
  · exact Vector.getElem_replicate _
  · exact Vector.getElem_replicate _
  · exact Vector.getElem_replicate _

end Sys2Proof.Machine
end

section
/-! SUPPORT. What each part of the state is written by (10_state.md R23, R26, R28, R32 to R36), and the modes that a
step can leave (60_exceptions.md R250 to R252, R264): case analyses over `After` and `AfterCall`. -/

namespace Sys2Proof.Machine

open Sys2Proof.Config

/-! ### Every instruction has a next state -/

theorem exists_endStep_eq_next (r : Except State State) : ∃ t, endStep r = .next t := by
  obtain ⟨t, ht, -⟩ := endStep_next r
  exact ⟨t, ht⟩

/-- Settles O52: an instruction that can raise ends its step with a state either way; every other has one next state. -/
theorem everyInstructionAnswersANextState : Obligations.EveryInstructionAnswersANextState := by
  unfold Obligations.EveryInstructionAnswersANextState
  intro i s
  cases i with
  | sys | ret | call | drw | skp | sknp | ldBVx | ldMemVx | ldVxMem =>
    simp only [exec, execSys, execRet, execCall, execDrw, execSkp, execSknp, execLdBVx, execLdMemVx, execLdVxMem,
      exists_endStep_eq_next]
  | _ => exact ⟨_, rfl⟩

/-! ### Filling registers and skipping leave the other fields -/

section OtherFields

variable (s : State) (a : Nat) (xs : List Reg) (c : Bool)

@[simp] theorem fillRegs_i : (fillRegs s a xs).i = s.i := by rw [fillRegs_eq]
@[simp] theorem fillRegs_sp : (fillRegs s a xs).sp = s.sp := by rw [fillRegs_eq]
@[simp] theorem fillRegs_stack : (fillRegs s a xs).stack = s.stack := by rw [fillRegs_eq]
@[simp] theorem fillRegs_dt : (fillRegs s a xs).dt = s.dt := by rw [fillRegs_eq]
@[simp] theorem fillRegs_key : (fillRegs s a xs).key = s.key := by rw [fillRegs_eq]
@[simp] theorem fillRegs_pix : (fillRegs s a xs).pix = s.pix := by rw [fillRegs_eq]
@[simp] theorem fillRegs_binding : (fillRegs s a xs).binding = s.binding := by rw [fillRegs_eq]

end OtherFields

/-! ### Writers of each part -/

theorem eq_vf_of_setReg {s : State} {x : Reg} {b : Byte} (h : (s.setReg x b).reg 15 ≠ s.reg 15) : x = 15 := by
  by_contra hne
  exact h (by rw [State.reg_setReg, if_neg hne])

theorem eq_vf_of_fillRegs {s : State} {a : Nat} {x : Reg} {xs : List Reg} (hxs : ∀ y ∈ xs, y ≤ x)
    (h : (fillRegs s a xs).reg 15 ≠ s.reg 15) : x = 15 := by
  have hlisted : (15 : Reg) ∈ xs := by
    by_contra hnot
    exact h (fillRegs_reg_other s a xs hnot)
  exact le_antisymm (Fin.le_last x) (hxs 15 hlisted)

theorem increments_of_index_ne (w : Word) (x : Reg) (h : indexAfterTransfer loadStoreIncrementsI w x ≠ w) :
    loadStoreIncrementsI = true := by
  by_contra hno
  exact h (if_neg hno)

section Writers

variable {i : Instr} {s t : State} (ha : After s i t)

include ha

theorem After.pix (hcls : i ≠ .cls) (hdrw : ∀ x y n, i ≠ .drw x y n) : t.pix = s.pix := by
  cases ha with
  | cls => exact absurd rfl hcls
  | drw x y n | drwOutside x y n => exact absurd rfl (hdrw x y n)
  | _ => simp [State.skip_eq, State.setRegFlag]

theorem After.stack (hret : i ≠ .ret) (hcall : ∀ nnn, i ≠ .call nnn) : t.sp = s.sp ∧ t.stack = s.stack := by
  cases ha with
  | ret | retEmpty => exact absurd rfl hret
  | call nnn | callFull nnn => exact absurd rfl (hcall nnn)
  | _ => simp [State.skip_eq, State.setRegFlag]

theorem After.byte (hbcd : ∀ x, i ≠ .ldBVx x) (hdump : ∀ x, i ≠ .ldMemVx x) (a : Nat) : t.byte a = s.byte a := by
  cases ha with
  | ldBVx x | ldBVxOutside x => exact absurd rfl (hbcd x)
  | ldMemVx x | ldMemVxOutside x => exact absurd rfl (hdump x)
  | ldVxMem | ldVxMemOutside => simp [byte_fillRegs]
  | ret | call | rnd => rfl
  | _ => simp [State.skip_eq, State.setRegFlag]

theorem After.key : t.key = s.key := by
  cases ha <;> simp [State.skip_eq, State.setRegFlag]

theorem After.binding : t.binding = s.binding := by
  cases ha <;> simp [State.skip_eq, State.setRegFlag]

theorem After.dt (hdt : ∀ x, i ≠ .ldDtVx x) : t.dt = s.dt := by
  cases ha with
  | ldDtVx x => exact absurd rfl (hdt x)
  | _ => simp [State.skip_eq, State.setRegFlag]

/-- I is written by its three instructions, and by a completed transfer under the quirk. -/
theorem After.index (hi : t.i ≠ s.i) : (∃ nnn, i = .ldI nnn) ∨ ∃ x, i = .addIVx x ∨ i = .ldFVx x ∨
    (loadStoreIncrementsI = true ∧ (i = .ldMemVx x ∨ i = .ldVxMem x)) := by
  cases ha with
  | ldI nnn => exact .inl ⟨nnn, rfl⟩
  | addIVx x => exact .inr ⟨x, .inl rfl⟩
  | ldFVx x => exact .inr ⟨x, .inr (.inl rfl)⟩
  | ldMemVx x => exact .inr ⟨x, .inr (.inr ⟨increments_of_index_ne s.i x hi, .inl rfl⟩)⟩
  | ldVxMem x => exact .inr ⟨x, .inr (.inr ⟨increments_of_index_ne s.i x hi, .inr rfl⟩)⟩
  | _ => simp [State.skip_eq, State.setRegFlag] at hi

/-- VF is written by a flag, or as a destination. -/
theorem After.vf (hvf : t.reg 15 ≠ s.reg 15) :
    (∃ x y, i = .addReg x y ∨ i = .subReg x y ∨ i = .subnReg x y ∨ i = .shr x y ∨ i = .shl x y ∨ ∃ n, i = .drw x y n) ∨
    (∃ nn, i = .ldImm 15 nn ∨ i = .addImm 15 nn ∨ i = .rnd 15 nn) ∨
    (∃ y, i = .ldReg 15 y ∨ i = .orReg 15 y ∨ i = .andReg 15 y ∨ i = .xorReg 15 y) ∨
    i = .ldVxDt 15 ∨ i = .ldVxMem 15 := by
  cases ha with
  | addReg x y | subReg x y | subnReg x y | shr x y | shl x y => exact .inl ⟨x, y, by simp⟩
  | drw x y n => exact .inl ⟨x, y, by simp⟩
  | ldImm x nn | addImm x nn =>
    obtain rfl := eq_vf_of_setReg hvf
    exact .inr (.inl ⟨nn, by simp⟩)
  | rnd x nn =>
    obtain rfl := eq_vf_of_setReg (s := s) hvf
    exact .inr (.inl ⟨nn, by simp⟩)
  | ldReg x y | orReg x y | andReg x y | xorReg x y =>
    obtain rfl := eq_vf_of_setReg hvf
    exact .inr (.inr (.inl ⟨y, by simp⟩))
  | ldVxDt x =>
    obtain rfl := eq_vf_of_setReg hvf
    exact .inr (.inr (.inr (.inl rfl)))
  | ldVxMem x xs hxs =>
    obtain rfl := eq_vf_of_fillRegs hxs hvf
    exact .inr (.inr (.inr (.inr rfl)))
  | ldVxMemOutside x xs hxs =>
    rw [State.reg_halt] at hvf
    obtain rfl := eq_vf_of_fillRegs hxs hvf
    exact .inr (.inr (.inr (.inr rfl)))
  | ret | call => exact absurd rfl hvf
  | _ => simp [State.skip_eq] at hvf

end Writers

/-- Settles O56: each part by its own case analysis. -/
theorem stateIsWrittenByItsOwnersOnly : Obligations.StateIsWrittenByItsOwnersOnly := by
  unfold Obligations.StateIsWrittenByItsOwnersOnly
  intro i s t h
  have ha := exec_after h
  exact ⟨ha.pix, ha.stack, ha.byte, ha.key, ha.binding⟩

/-- Settles O57: by the cases of `After.vf`. -/
theorem vfHasOnlyItsWriters : Obligations.VfHasOnlyItsWriters := by
  unfold Obligations.VfHasOnlyItsWriters
  exact fun i s t h hvf => (exec_after h).vf hvf

/-- Settles O58: by the cases of `After.dt` and `After.index`. -/
theorem delayTimerAndIndexHaveOnlyTheirWriters : Obligations.DelayTimerAndIndexHaveOnlyTheirWriters := by
  unfold Obligations.DelayTimerAndIndexHaveOnlyTheirWriters
  exact fun i s t h => ⟨(exec_after h).dt, (exec_after h).index⟩

/-! ### Modes -/

theorem State.skip_mode (s : State) (c : Bool) : (s.skip c).mode = s.mode := by
  rw [State.skip_eq, State.setPc_mode]

/-- Settles O55: an instruction that raises halts with its kind, FX0A waits, and no other writes the mode. -/
theorem instructionsLeaveReadyAsTabled : Obligations.InstructionsLeaveReadyAsTabled := by
  unfold Obligations.InstructionsLeaveReadyAsTabled
  intro i s t hm h
  have hhalt (kind : ErrorKind) : (s.halt kind).mode = .halted kind :=
    State.halt_mode_of_unhalted s kind (State.unhalted_of_ready hm)
  cases exec_after h with
  | ldVxK x => exact .inr (.inl ⟨x, rfl, rfl⟩)
  | sys nnn => exact .inr (.inr (.inl ⟨hhalt _, nnn, rfl⟩))
  | retEmpty => exact .inr (.inr (.inr (.inl ⟨hhalt _, .inl rfl⟩)))
  | callFull nnn => exact .inr (.inr (.inr (.inl ⟨hhalt _, .inr ⟨nnn, rfl⟩⟩)))
  | skpInvalid x => exact .inr (.inr (.inr (.inr (.inl ⟨hhalt _, x, .inl rfl⟩))))
  | sknpInvalid x => exact .inr (.inr (.inr (.inr (.inl ⟨hhalt _, x, .inr rfl⟩))))
  | drwOutside x y n => exact .inr (.inr (.inr (.inr (.inr ⟨hhalt _, x, .inl ⟨y, n, rfl⟩⟩))))
  | ldBVxOutside x =>
    exact .inr (.inr (.inr (.inr (.inr ⟨State.halt_mode_of_unhalted _ _ (State.unhalted_of_ready hm), x, by simp⟩))))
  | ldMemVxOutside x =>
    exact .inr (.inr (.inr (.inr (.inr ⟨State.halt_mode_of_unhalted _ _ (State.unhalted_of_ready hm), x, by simp⟩))))
  | ldVxMemOutside x xs =>
    have hfill : (fillRegs s s.i.toNat xs).mode = .ready := (fillRegs_mode s _ xs).trans hm
    exact .inr (.inr (.inr (.inr (.inr ⟨State.halt_mode_of_unhalted _ _ (State.unhalted_of_ready hfill), x, by simp⟩))))
  | ldVxMem x xs => exact .inl ((fillRegs_mode s _ xs).trans hm)
  | seImm | sneImm | seReg | sneReg | skp | sknp => exact .inl ((s.skip_mode _).trans hm)
  | _ => exact .inl hm

/-! ### Steps outside Ready -/

/-- What a step in Halted keeps, a reset apart: everything but memory, keys, timers, the table and the model's own
fields (60_exceptions.md R252). -/
structure SameCore (s t : State) : Prop where
  /-- the mode and its kind -/
  mode : t.mode = s.mode
  /-- pc -/
  pc : t.pc = s.pc
  /-- I -/
  i : t.i = s.i
  /-- SP -/
  sp : t.sp = s.sp
  /-- the stack's entries -/
  stack : t.stack = s.stack
  /-- V0 to VF -/
  v : t.v = s.v
  /-- the screen -/
  pix : t.pix = s.pix

theorem SameCore.halt {s : State} {k : ErrorKind} (hm : s.mode = .halted k) (kind : ErrorKind) :
    SameCore s (s.halt kind) := by
  rw [State.halt_of_halted s kind hm]
  exact ⟨rfl, rfl, rfl, rfl, rfl, rfl, rfl⟩

theorem AfterCall.sameCore_of_halted {c : HostCall} {s t : State} {k : ErrorKind} (ha : AfterCall s c t)
    (hm : s.mode = .halted k) (hc : c ≠ .reinit) : SameCore s t := by
  cases ha with
  | reinit => exact absurd rfl hc
  | loadTooLarge | pressInvalid | releaseInvalid | isDownInvalid => exact .halt hm _
  | press k =>
    rw [State.endWait_of_not_waiting (s.setKey k true) k (by rw [State.setKey_mode, hm]; exact nofun)]
    exact ⟨rfl, rfl, rfl, rfl, rfl, rfl, rfl⟩
  | _ => exact ⟨rfl, rfl, rfl, rfl, rfl, rfl, rfl⟩

/-- Settles O53: in Halted a cycle is idle, a second error keeps the first kind, and no other call but a reset touches
the core. -/
theorem haltedIsTerminal : Obligations.HaltedIsTerminal := by
  unfold Obligations.HaltedIsTerminal
  intro s t k hm hc hstep
  have hcore : SameCore s.dropCall t := by
    rcases step_after hstep with ⟨-, hexec⟩ | hcall
    · rw [executeNext_of_halted (s := s.dropCall) hm] at hexec
      cases hexec
      exact ⟨rfl, rfl, rfl, rfl, rfl, rfl, rfl⟩
    · exact hcall.sameCore_of_halted hm hc
  obtain ⟨hmode, hpc, hi, hsp, hstack, hv, hpix⟩ := hcore
  exact ⟨hmode.trans hm, hpc, hi, hsp, hstack, hv, hpix⟩

/-- What a host call does to a wait: a press of a key or a reset ends it, an error of a call halts the core, and every
other call leaves it. -/
theorem AfterCall.mode_of_waiting {c : HostCall} {s t : State} {x : Reg} (ha : AfterCall s c t)
    (hm : s.mode = .waitingForKey x) :
    t.mode = .waitingForKey x ∨
    (t.mode = .ready ∧ (c = .reinit ∨ ∃ k, k < 16 ∧ c = .press k)) ∨
    (t.mode = .halted .capacityExceeded ∧ ∃ bytes n, c = .load bytes n) ∨
    (t.mode = .halted .invalidKey ∧
      ∃ k, 16 ≤ k ∧ c ∈ [HostCall.press k, HostCall.release k, HostCall.isDown k]) := by
  have hhalt (kind : ErrorKind) : (s.halt kind).mode = .halted kind :=
    State.halt_mode_of_unhalted s kind (by rw [hm]; exact nofun)
  cases ha with
  | reinit => exact .inr (.inl ⟨rfl, .inl rfl⟩)
  | press k =>
    have hend : ((s.setKey k true).endWait k).mode = .ready := by
      rw [State.endWait_of_waiting (s.setKey k true) k hm, State.setMode_mode]
    exact .inr (.inl ⟨hend, .inr ⟨k.val, k.isLt, rfl⟩⟩)
  | loadTooLarge bytes n => exact .inr (.inr (.inl ⟨hhalt _, bytes, n, rfl⟩))
  | pressInvalid k hk | releaseInvalid k hk | isDownInvalid k hk =>
    exact .inr (.inr (.inr ⟨hhalt _, k, hk, by simp⟩))
  | _ => exact .inl hm

/-- Settles O54: in a wait a cycle is idle, and the other calls are those of `AfterCall.mode_of_waiting`. -/
theorem onlyAPressWakes : Obligations.OnlyAPressWakes := by
  unfold Obligations.OnlyAPressWakes
  intro s t x hm hstep
  rcases step_after hstep with ⟨-, hexec⟩ | hcall
  · rw [executeNext_of_waiting (s := s.dropCall) hm] at hexec
    cases hexec
    exact .inl hm
  · exact hcall.mode_of_waiting hm

end Sys2Proof.Machine
end
